-- ==== Sys2Proof/Word.lean ====
section
/-! DEFINITION. The word types of the machine (spec/00_scope.md R9, R10: every value is an unsigned integer of a
stated width). -/

namespace Sys2Proof

/-- An 8-bit value: a register `V[i]`, a memory byte, a timer, an immediate `kk` (R21, R35). -/
abbrev Byte := BitVec 8

/-- A 16-bit value: an instruction word, the program counter, a stack slot (R24, R28, R90). -/
abbrev Word := BitVec 16

/-- A 12-bit value: the index register `I` and the address field `nnn` (R27, R93). -/
abbrev Addr := BitVec 12

/-- A register index, the 4-bit field `x` or `y` (R21, R23). -/
abbrev Reg := Fin 16

end Sys2Proof
end

