-- ==== Sys2Proof/Config.lean ====
section
/-! DEFINITION. The sizes of spec/00_scope.md R7 and the model's one free value (R8 row `RND`). -/

namespace Sys2Proof.Config

/-- `PROG_ORIGIN`: first byte of the program and reset value of `PC` (R7). -/
abbrev progOrigin : Nat := 0x200

/-- `MAX_PROG`: largest program, `4096 - 0x200` bytes (R7, R253). -/
abbrev maxProg : Nat := 3584

/-- `FONT_BASE`: first byte of the font table (R7). -/
abbrev fontBase : Nat := 0x000

/-- `FONT_SIZE`: bytes of the font table (R7, R47). -/
abbrev fontSize : Nat := 80

/-- The FREE VALUE of this model: the byte the random source yields at the given draw when the host has supplied none
(R45, R171, decision D12: "a model must let it be any byte, each time"). It has no body: nothing can be proved of its
value. Log entry 1. -/
opaque freeRandomByte : Nat → Byte

end Sys2Proof.Config
end

