-- ==== Sys2Proof/Syntax.lean ====
section
/-! DEFINITION. The instruction set: one constructor per row of spec/opcode_table.json (spec/30_encoding.md R96).
Every operand has exactly the width of its field (R91, R93), so no term of `Instr` is ill-formed. -/

namespace Sys2Proof

/-- The 35 instructions, in the order of the table of R96. -/
inductive Instr where
  /-- `0000` NOP (R140). -/
  | nop
  /-- `00E0` CLS (R210). -/
  | cls
  /-- `00EE` RET (R141). -/
  | ret
  /-- `1nnn` JP nnn (R142). -/
  | jp (nnn : Addr)
  /-- `2nnn` CALL nnn (R143). -/
  | call (nnn : Addr)
  /-- `3xkk` SE Vx, kk (R144). -/
  | seImm (x : Reg) (kk : Byte)
  /-- `4xkk` SNE Vx, kk (R145). -/
  | sneImm (x : Reg) (kk : Byte)
  /-- `5xy0` SE Vx, Vy (R146). -/
  | seReg (x y : Reg)
  /-- `6xkk` LD Vx, kk (R160). -/
  | ldImm (x : Reg) (kk : Byte)
  /-- `7xkk` ADD Vx, kk (R161). -/
  | addImm (x : Reg) (kk : Byte)
  /-- `8xy0` LD Vx, Vy (R162). -/
  | ldReg (x y : Reg)
  /-- `8xy1` OR Vx, Vy (R163). -/
  | orReg (x y : Reg)
  /-- `8xy2` AND Vx, Vy (R164). -/
  | andReg (x y : Reg)
  /-- `8xy3` XOR Vx, Vy (R165). -/
  | xorReg (x y : Reg)
  /-- `8xy4` ADD Vx, Vy (R166). -/
  | addReg (x y : Reg)
  /-- `8xy5` SUB Vx, Vy (R167). -/
  | sub (x y : Reg)
  /-- `8xy6` SHR Vx; `y` is decoded and ignored (R168, R99). -/
  | shr (x y : Reg)
  /-- `8xy7` SUBN Vx, Vy (R169). -/
  | subn (x y : Reg)
  /-- `8xyE` SHL Vx; `y` is decoded and ignored (R170, R99). -/
  | shl (x y : Reg)
  /-- `9xy0` SNE Vx, Vy (R147). -/
  | sneReg (x y : Reg)
  /-- `Annn` LD I, nnn (R190). -/
  | ldI (nnn : Addr)
  /-- `Bnnn` JP V0, nnn (R148). -/
  | jpV0 (nnn : Addr)
  /-- `Cxkk` RND Vx, kk (R171). -/
  | rnd (x : Reg) (kk : Byte)
  /-- `Dxyn` DRW Vx, Vy, n; `n` is a count of sprite rows, 0 to 15 (R211, R214). -/
  | drw (x y : Reg) (n : Fin 16)
  /-- `Ex9E` SKP Vx (R230). -/
  | skp (x : Reg)
  /-- `ExA1` SKNP Vx (R231). -/
  | sknp (x : Reg)
  /-- `Fx07` LD Vx, DT (R233). -/
  | ldVxDT (x : Reg)
  /-- `Fx0A` LD Vx, K (R232). -/
  | ldVxK (x : Reg)
  /-- `Fx15` LD DT, Vx (R234). -/
  | ldDTVx (x : Reg)
  /-- `Fx18` LD ST, Vx (R235). -/
  | ldSTVx (x : Reg)
  /-- `Fx1E` ADD I, Vx (R191). -/
  | addI (x : Reg)
  /-- `Fx29` LD F, Vx (R192). -/
  | ldF (x : Reg)
  /-- `Fx33` LD B, Vx (R193). -/
  | ldB (x : Reg)
  /-- `Fx55` LD [I], Vx (R194). -/
  | stRegs (x : Reg)
  /-- `Fx65` LD Vx, [I] (R195). -/
  | ldRegs (x : Reg)
  deriving DecidableEq, Repr

end Sys2Proof
end

