-- ==== Sys2Proof/WellFormed.lean ====
section
/-! DEFINITION. The checks on what is given to the machine or to its encoder. An `Instr` needs no range check: its
operands have their fields' widths by type (R23: "V-register indexing is always masked to 4 bits by construction"). What
can be ill-formed is: an instruction that is not in the one form the assembler emits, a program that does not fit, and a
font table that is none. -/

namespace Sys2Proof

/-- The assembler's own form of an instruction: `SHR Vx` and `SHL Vx` are emitted with 0 in the unused `y` field
(spec/30_encoding.md R100). The decoder accepts every `y` (R99); only the text of the instruction cannot tell them apart. -/
def Instr.canonical : Instr → Bool
  | .shr _ y => y == 0
  | .shl _ y => y == 0
  | _ => true

/-- A program that load accepts has at most 3584 bytes (spec/50_host_interface.md R252, R253). -/
def programFits (bytes : List Byte) : Bool := decide (bytes.length ≤ Config.maxProg)

/-- The glyph of hex digit `d` is the five bytes at `5*d` (spec/10_state.md R47). -/
def glyphOf (font : List Byte) (d : Fin 16) : List Byte := (font.drop (5 * d.val)).take 5

/-- What the source fixes of a font table (R47): 80 bytes, glyphs 4 pixels wide (bits 3 to 0 of every byte are 0), and
the glyph of digit 0 has a set pixel. -/
def fontWf (font : List Byte) : Bool :=
  decide (font.length = Config.fontSize) && font.all (fun b => b &&& 0x0F == 0)
    && (glyphOf font 0).any (fun b => b != 0)

end Sys2Proof
end

