-- ==== Sys2Proof/Decode.lean ====
section
/-! DEFINITION. Instruction encoding (spec/30_encoding.md): the fields of a word, the decoder (total on words and on
bytes, rejecting by name), the encoder, the opcode table of R96 as data, and the assembly text of R100. -/

namespace Sys2Proof

/-! ## The fields of an instruction word (R91) -/

/-- `n1 = op[15:12]`, the family. -/
def famOf (op : Word) : Nat := (op.extractLsb' 12 4).toNat

/-- `x = op[11:8]`. -/
def xOf (op : Word) : Reg := ⟨(op.extractLsb' 8 4).toNat, (op.extractLsb' 8 4).isLt⟩

/-- `y = op[7:4]`. -/
def yOf (op : Word) : Reg := ⟨(op.extractLsb' 4 4).toNat, (op.extractLsb' 4 4).isLt⟩

/-- `n4 = op[3:0]`, the sub-opcode of families 5, 8, 9 and the row count of family D. -/
def nOf (op : Word) : Fin 16 := ⟨(op.extractLsb' 0 4).toNat, (op.extractLsb' 0 4).isLt⟩

/-- `kk = op[7:0]`. -/
def kkOf (op : Word) : Byte := op.extractLsb' 0 8

/-- `nnn = op[11:0]`. -/
def nnnOf (op : Word) : Addr := op.extractLsb' 0 12

/-! ## The decoder (R94, R95, R97) -/

/-- Family 0: three words, all 16 bits fixed (R94). -/
def decodeSystem (op : Word) : Option Instr :=
  match (nnnOf op).toNat with
  | 0x000 => some .nop
  | 0x0E0 => some .cls
  | 0x0EE => some .ret
  | _ => none

/-- Family 8: the low nibble selects the operation (R94). -/
def decodeAlu (op : Word) : Option Instr :=
  match (nOf op).val with
  | 0x0 => some (.ldReg (xOf op) (yOf op))
  | 0x1 => some (.orReg (xOf op) (yOf op))
  | 0x2 => some (.andReg (xOf op) (yOf op))
  | 0x3 => some (.xorReg (xOf op) (yOf op))
  | 0x4 => some (.addReg (xOf op) (yOf op))
  | 0x5 => some (.sub (xOf op) (yOf op))
  | 0x6 => some (.shr (xOf op) (yOf op))
  | 0x7 => some (.subn (xOf op) (yOf op))
  | 0xE => some (.shl (xOf op) (yOf op))
  | _ => none

/-- Family E: the low byte selects (R94). -/
def decodeKey (op : Word) : Option Instr :=
  match (kkOf op).toNat with
  | 0x9E => some (.skp (xOf op))
  | 0xA1 => some (.sknp (xOf op))
  | _ => none

/-- Family F: the low byte selects (R94). -/
def decodeMisc (op : Word) : Option Instr :=
  match (kkOf op).toNat with
  | 0x07 => some (.ldVxDT (xOf op))
  | 0x0A => some (.ldVxK (xOf op))
  | 0x15 => some (.ldDTVx (xOf op))
  | 0x18 => some (.ldSTVx (xOf op))
  | 0x1E => some (.addI (xOf op))
  | 0x29 => some (.ldF (xOf op))
  | 0x33 => some (.ldB (xOf op))
  | 0x55 => some (.stRegs (xOf op))
  | 0x65 => some (.ldRegs (xOf op))
  | _ => none

/-- `decode(op)`: the total function from words to an instruction or unknown (`none`), reading nothing but `op`
(R95, R123). -/
def decode (op : Word) : Option Instr :=
  match famOf op with
  | 0x0 => decodeSystem op
  | 0x1 => some (.jp (nnnOf op))
  | 0x2 => some (.call (nnnOf op))
  | 0x3 => some (.seImm (xOf op) (kkOf op))
  | 0x4 => some (.sneImm (xOf op) (kkOf op))
  | 0x5 => if (nOf op).val = 0 then some (.seReg (xOf op) (yOf op)) else none
  | 0x6 => some (.ldImm (xOf op) (kkOf op))
  | 0x7 => some (.addImm (xOf op) (kkOf op))
  | 0x8 => decodeAlu op
  | 0x9 => if (nOf op).val = 0 then some (.sneReg (xOf op) (yOf op)) else none
  | 0xA => some (.ldI (nnnOf op))
  | 0xB => some (.jpV0 (nnnOf op))
  | 0xC => some (.rnd (xOf op) (kkOf op))
  | 0xD => some (.drw (xOf op) (yOf op) (nOf op))
  | 0xE => decodeKey op
  | _ => decodeMisc op

/-- Why bytes decode to no instruction. -/
inductive DecodeError where
  /-- The word matches no row of the opcode table (R97). Safe: the tick takes the `UnknownOpcode` fault on it. -/
  | unknownOpcode (op : Word)
  /-- Fewer than the two bytes of an instruction are left (R90). Safe: raised on a byte list, never by a tick. -/
  | truncated (left : List Byte)
  deriving DecidableEq, Repr

/-- The word of two bytes, the byte at the lower address high (spec/20_memory.md R65: big-endian). -/
def wordOfBytes (hi lo : Byte) : Word := hi ++ lo

/-- Decode the first instruction of a byte list and give the rest: total, rejecting by name (R90, R95). -/
def decodeBytes : List Byte → Except DecodeError (Instr × List Byte)
  | hi :: lo :: rest =>
    match decode (wordOfBytes hi lo) with
    | some i => .ok (i, rest)
    | none => .error (.unknownOpcode (wordOfBytes hi lo))
  | short => .error (.truncated short)

/-! ## The encoder (R92, R96) -/

/-- A register index or row count as its 4-bit field. -/
def nibble (r : Fin 16) : BitVec 4 := BitVec.ofNat 4 r.val

/-- Format `A`: family and `nnn`. -/
def encodeA (fam : BitVec 4) (nnn : Addr) : Word := fam ++ nnn

/-- Format `RI`: family, `x`, `kk`; also format `R`, whose low byte is the fixed sub-opcode. -/
def encodeRI (fam : BitVec 4) (x : Reg) (kk : Byte) : Word := fam ++ (nibble x ++ kk)

/-- Format `RRN`: family, `x`, `y`, `n`; also format `RR`, whose low nibble is the fixed sub-opcode. -/
def encodeRRN (fam : BitVec 4) (x y n : Fin 16) : Word := fam ++ (nibble x ++ (nibble y ++ nibble n))

/-- The word of an instruction (R96). -/
def encode : Instr → Word
  | .nop => 0x0000
  | .cls => 0x00E0
  | .ret => 0x00EE
  | .jp nnn => encodeA 0x1 nnn
  | .call nnn => encodeA 0x2 nnn
  | .seImm x kk => encodeRI 0x3 x kk
  | .sneImm x kk => encodeRI 0x4 x kk
  | .seReg x y => encodeRRN 0x5 x y 0x0
  | .ldImm x kk => encodeRI 0x6 x kk
  | .addImm x kk => encodeRI 0x7 x kk
  | .ldReg x y => encodeRRN 0x8 x y 0x0
  | .orReg x y => encodeRRN 0x8 x y 0x1
  | .andReg x y => encodeRRN 0x8 x y 0x2
  | .xorReg x y => encodeRRN 0x8 x y 0x3
  | .addReg x y => encodeRRN 0x8 x y 0x4
  | .sub x y => encodeRRN 0x8 x y 0x5
  | .shr x y => encodeRRN 0x8 x y 0x6
  | .subn x y => encodeRRN 0x8 x y 0x7
  | .shl x y => encodeRRN 0x8 x y 0xE
  | .sneReg x y => encodeRRN 0x9 x y 0x0
  | .ldI nnn => encodeA 0xA nnn
  | .jpV0 nnn => encodeA 0xB nnn
  | .rnd x kk => encodeRI 0xC x kk
  | .drw x y n => encodeRRN 0xD x y n
  | .skp x => encodeRI 0xE x 0x9E
  | .sknp x => encodeRI 0xE x 0xA1
  | .ldVxDT x => encodeRI 0xF x 0x07
  | .ldVxK x => encodeRI 0xF x 0x0A
  | .ldDTVx x => encodeRI 0xF x 0x15
  | .ldSTVx x => encodeRI 0xF x 0x18
  | .addI x => encodeRI 0xF x 0x1E
  | .ldF x => encodeRI 0xF x 0x29
  | .ldB x => encodeRI 0xF x 0x33
  | .stRegs x => encodeRI 0xF x 0x55
  | .ldRegs x => encodeRI 0xF x 0x65

/-- The high byte of a word, stored at the lower address (spec/20_memory.md R65). -/
def highByte (w : Word) : Byte := w.extractLsb' 8 8

/-- The low byte of a word, stored at the higher address. -/
def lowByte (w : Word) : Byte := w.extractLsb' 0 8

/-- The two bytes of an instruction in memory order (R65, R90). -/
def encodeBytes (i : Instr) : List Byte := [highByte (encode i), lowByte (encode i)]

/-- The host's view of the decoder: the first word of the table's numbering is the whole instruction here (every row has
16 bits), `w`'s bits from `nbits` on are 0, and the word is laid out as memory holds it. -/
def decodeTableWord (nbits w : Nat) : Option Instr :=
  let op : Word := BitVec.ofNat 16 (w % 2 ^ nbits)
  match decodeBytes [highByte op, lowByte op] with
  | .ok (i, _) => some i
  | .error _ => none

/-! ## The opcode table of R96, as data -/

/-- One row: a word `op` selects it when `op &&& mask = bits` (R96). -/
structure OpRow where
  /-- The mnemonic as spec/opcode_table.json spells it. -/
  mnemonic : String
  /-- The bits the row fixes. -/
  mask : Word
  /-- Their values (the table's `match`). -/
  bits : Word
  deriving DecidableEq, Repr

/-- Rows 1 to 12 of R96. -/
def opRows1 : List OpRow :=
  [⟨"NOP", 0xFFFF, 0x0000⟩, ⟨"CLS", 0xFFFF, 0x00E0⟩, ⟨"RET", 0xFFFF, 0x00EE⟩, ⟨"JP_nnn", 0xF000, 0x1000⟩,
   ⟨"CALL_nnn", 0xF000, 0x2000⟩, ⟨"SE_Vx__kk", 0xF000, 0x3000⟩, ⟨"SNE_Vx__kk", 0xF000, 0x4000⟩,
   ⟨"SE_Vx__Vy", 0xF00F, 0x5000⟩, ⟨"LD_Vx__kk", 0xF000, 0x6000⟩, ⟨"ADD_Vx__kk", 0xF000, 0x7000⟩,
   ⟨"LD_Vx__Vy", 0xF00F, 0x8000⟩, ⟨"OR_Vx__Vy", 0xF00F, 0x8001⟩]

/-- Rows 13 to 24 of R96. -/
def opRows2 : List OpRow :=
  [⟨"AND_Vx__Vy", 0xF00F, 0x8002⟩, ⟨"XOR_Vx__Vy", 0xF00F, 0x8003⟩, ⟨"ADD_Vx__Vy", 0xF00F, 0x8004⟩,
   ⟨"SUB_Vx__Vy", 0xF00F, 0x8005⟩, ⟨"SHR_Vx", 0xF00F, 0x8006⟩, ⟨"SUBN_Vx__Vy", 0xF00F, 0x8007⟩,
   ⟨"SHL_Vx", 0xF00F, 0x800E⟩, ⟨"SNE_Vx__Vy", 0xF00F, 0x9000⟩, ⟨"LD_I__nnn", 0xF000, 0xA000⟩,
   ⟨"JP_V0__nnn", 0xF000, 0xB000⟩, ⟨"RND_Vx__kk", 0xF000, 0xC000⟩, ⟨"DRW_Vx__Vy__n", 0xF000, 0xD000⟩]

/-- Rows 25 to 35 of R96. -/
def opRows3 : List OpRow :=
  [⟨"SKP_Vx", 0xF0FF, 0xE09E⟩, ⟨"SKNP_Vx", 0xF0FF, 0xE0A1⟩, ⟨"LD_Vx__DT", 0xF0FF, 0xF007⟩,
   ⟨"LD_Vx__K", 0xF0FF, 0xF00A⟩, ⟨"LD_DT__Vx", 0xF0FF, 0xF015⟩, ⟨"LD_ST__Vx", 0xF0FF, 0xF018⟩,
   ⟨"ADD_I__Vx", 0xF0FF, 0xF01E⟩, ⟨"LD_F__Vx", 0xF0FF, 0xF029⟩, ⟨"LD_B__Vx", 0xF0FF, 0xF033⟩,
   ⟨"LD__I___Vx", 0xF0FF, 0xF055⟩, ⟨"LD_Vx___I", 0xF0FF, 0xF065⟩]

/-- The complete opcode table of R96: 35 rows. -/
def opcodeTable : List OpRow := opRows1 ++ opRows2 ++ opRows3

/-- A word selects a row of the table (R96). -/
def OpRow.selects (r : OpRow) (op : Word) : Bool := op &&& r.mask == r.bits

/-- The instruction's mnemonic in the table. -/
def Instr.mnemonic : Instr → String
  | .nop => "NOP"
  | .cls => "CLS"
  | .ret => "RET"
  | .jp _ => "JP_nnn"
  | .call _ => "CALL_nnn"
  | .seImm _ _ => "SE_Vx__kk"
  | .sneImm _ _ => "SNE_Vx__kk"
  | .seReg _ _ => "SE_Vx__Vy"
  | .ldImm _ _ => "LD_Vx__kk"
  | .addImm _ _ => "ADD_Vx__kk"
  | .ldReg _ _ => "LD_Vx__Vy"
  | .orReg _ _ => "OR_Vx__Vy"
  | .andReg _ _ => "AND_Vx__Vy"
  | .xorReg _ _ => "XOR_Vx__Vy"
  | .addReg _ _ => "ADD_Vx__Vy"
  | .sub _ _ => "SUB_Vx__Vy"
  | .shr _ _ => "SHR_Vx"
  | .subn _ _ => "SUBN_Vx__Vy"
  | .shl _ _ => "SHL_Vx"
  | .sneReg _ _ => "SNE_Vx__Vy"
  | .ldI _ => "LD_I__nnn"
  | .jpV0 _ => "JP_V0__nnn"
  | .rnd _ _ => "RND_Vx__kk"
  | .drw _ _ _ => "DRW_Vx__Vy__n"
  | .skp _ => "SKP_Vx"
  | .sknp _ => "SKNP_Vx"
  | .ldVxDT _ => "LD_Vx__DT"
  | .ldVxK _ => "LD_Vx__K"
  | .ldDTVx _ => "LD_DT__Vx"
  | .ldSTVx _ => "LD_ST__Vx"
  | .addI _ => "ADD_I__Vx"
  | .ldF _ => "LD_F__Vx"
  | .ldB _ => "LD_B__Vx"
  | .stRegs _ => "LD__I___Vx"
  | .ldRegs _ => "LD_Vx___I"

/-! ## Assembly text (R100) -/

/-- A number below 16 as a hexadecimal digit. -/
def hexDigit (d : Nat) : Char := if d < 10 then Char.ofNat (48 + d) else Char.ofNat (55 + d)

/-- `k` hexadecimal digits of `n`, most significant first. -/
def hexDigits : Nat → Nat → List Char
  | 0, _ => []
  | k + 1, n => hexDigits k (n / 16) ++ [hexDigit (n % 16)]

/-- A number as `0x` and `k` digits (R100). -/
def hexText (k n : Nat) : String := String.ofList ('0' :: 'x' :: hexDigits k n)

/-- A register's name, `V0` to `VF` (R21, R100). -/
def regText (x : Reg) : String := String.ofList ['V', hexDigit x.val]

/-- The operands `Vx, Vy`. -/
def regsText (x y : Reg) : String := regText x ++ ", " ++ regText y

/-- The operands `Vx, kk`. -/
def regImmText (x : Reg) (kk : Byte) : String := regText x ++ ", " ++ hexText 2 kk.toNat

/-- The assembly line of an instruction in the syntax of R100; `SHR` and `SHL` show one operand. -/
def Instr.asm : Instr → String
  | .nop => "NOP"
  | .cls => "CLS"
  | .ret => "RET"
  | .jp nnn => "JP " ++ hexText 3 nnn.toNat
  | .call nnn => "CALL " ++ hexText 3 nnn.toNat
  | .seImm x kk => "SE " ++ regImmText x kk
  | .sneImm x kk => "SNE " ++ regImmText x kk
  | .seReg x y => "SE " ++ regsText x y
  | .ldImm x kk => "LD " ++ regImmText x kk
  | .addImm x kk => "ADD " ++ regImmText x kk
  | .ldReg x y => "LD " ++ regsText x y
  | .orReg x y => "OR " ++ regsText x y
  | .andReg x y => "AND " ++ regsText x y
  | .xorReg x y => "XOR " ++ regsText x y
  | .addReg x y => "ADD " ++ regsText x y
  | .sub x y => "SUB " ++ regsText x y
  | .shr x _ => "SHR " ++ regText x
  | .subn x y => "SUBN " ++ regsText x y
  | .shl x _ => "SHL " ++ regText x
  | .sneReg x y => "SNE " ++ regsText x y
  | .ldI nnn => "LD I, " ++ hexText 3 nnn.toNat
  | .jpV0 nnn => "JP V0, " ++ hexText 3 nnn.toNat
  | .rnd x kk => "RND " ++ regImmText x kk
  | .drw x y n => "DRW " ++ regsText x y ++ ", " ++ hexText 1 n.val
  | .skp x => "SKP " ++ regText x
  | .sknp x => "SKNP " ++ regText x
  | .ldVxDT x => "LD " ++ regText x ++ ", DT"
  | .ldVxK x => "LD " ++ regText x ++ ", K"
  | .ldDTVx x => "LD DT, " ++ regText x
  | .ldSTVx x => "LD ST, " ++ regText x
  | .addI x => "ADD I, " ++ regText x
  | .ldF x => "LD F, " ++ regText x
  | .ldB x => "LD B, " ++ regText x
  | .stRegs x => "LD [I], " ++ regText x
  | .ldRegs x => "LD " ++ regText x ++ ", [I]"

/-- The line that stands for a raw word: its instruction, or a `DW` data directive (R100). -/
def asmOfWord (op : Word) : String :=
  match decode op with
  | some i => i.asm
  | none => "DW " ++ hexText 4 op.toNat

end Sys2Proof
end

