-- ==== Sys2Proof/Machine/State.lean ====
section
/-! DEFINITION. The complete architectural state (spec/10_state.md R20), the fault records (spec/60_exceptions.md R281),
the refusals, and the state after reset (R46). -/

namespace Sys2Proof.Machine

/-- The four fault records of R281, held by the `FAULT` latch (R38). A tick TAKES a fault: it answers a next state with
the latch set (R125, R288), so no step ever ends in `Host.Outcome.fault`. Each record is the spec's own behaviour; all
four are safe (log entry 2). -/
inductive Fault where
  /-- Decode: the fetched word `op` matches no row of the table (R282). Raised by the tick. Safe. -/
  | unknownOpcode (op : Word)
  /-- An access to `MEM` above `0xFFF`; `addr` is the lowest such address (R283). Raised by fetch, `Dxyn`, `Fx33`,
  `Fx55`, `Fx65`. Safe: an implementation that masks addresses goes on here (log entry 7). -/
  | memFault (addr : Word)
  /-- `2nnn` with `SP = 16` (R284). Raised by CALL. Safe. -/
  | stackOverflow
  /-- `00EE` with `SP = 0` (R285). Raised by RET. Safe. -/
  | stackUnderflow
  deriving DecidableEq, Repr

/-- Why the model has no transition. -/
inductive Refusal where
  /-- An instruction with no meaning yet, raised by `exec`; no arm of this model answers it. Safe. -/
  | notModelled (mnemonic : String)
  /-- The host loads onto a used machine, which the source calls undefined (R253 (b), U1). Raised by the host operation
  load only, never by a tick. Safe. -/
  | loadOnUsedMachine
  deriving DecidableEq, Repr

/-- The framebuffer `FB[0..2047]` as 32 rows of 64 one-bit cells: `FB[row*64 + col]` is bit `col` of row `row` (R36). -/
abbrev FrameBuffer := Vector (BitVec 64) 32

/-- The complete state of the core (R20), and the two fields that stand for the random source outside it (R45). -/
structure State where
  /-- `MEM[0..4095]`, in canonical form (`Memory.wf`); an unlisted address reads 0, the reset contents (R35, R46). -/
  mem : List Host.Cell
  /-- `V0..VF`; `VF` doubles as the flag register (R21, R22). -/
  v : Vector Byte 16
  /-- The index register `I` (R27). -/
  i : Addr
  /-- The program counter (R24). -/
  pc : Word
  /-- `STACK[0..15]`, not part of `MEM` (R28). -/
  stack : Vector Word 16
  /-- The stack pointer, the number of pushed frames, `0..16` (R29). -/
  sp : Fin 17
  /-- The delay timer (R30). -/
  dt : Byte
  /-- The sound timer (R31). -/
  st : Byte
  /-- The framebuffer (R36). -/
  fb : FrameBuffer
  /-- The key latch: bit `k` is `KEY[k]`, written by the host only (R37). -/
  keys : BitVec 16
  /-- `DRAW_PENDING` (R32). -/
  drawPending : Bool
  /-- `BEEP_PENDING` (R33). -/
  beepPending : Bool
  /-- The sticky `FAULT` latch; the core is halted while it is set (R38). -/
  fault : Option Fault
  /-- `USED`: set by the first successful load and by the first tick (R39). -/
  used : Bool
  /-- The model's own field: bytes the host has supplied for `rnd8()`, oldest first (R256; log entry 1). -/
  rndSupply : List Byte
  /-- The model's own field: how many draws have been made, the argument of the free value (log entry 1). -/
  rndDraws : Nat
  deriving DecidableEq, Repr

/-- The state after reset: everything zero, false or none, except `PC = 0x200` (R46, R320). The last two fields are the
model's own (DESIGN CHOICE, log entry 1). -/
def State.reset : State where
  mem := []
  v := Vector.replicate 16 0
  i := 0
  pc := BitVec.ofNat 16 Config.progOrigin
  stack := Vector.replicate 16 0
  sp := 0
  dt := 0
  st := 0
  fb := Vector.replicate 32 0
  keys := 0
  drawPending := false
  beepPending := false
  fault := none
  used := false
  rndSupply := []
  rndDraws := 0

end Sys2Proof.Machine
end

