-- ==== Sys2Proof/Machine/Memory.lean ====
section
/-! DEFINITION. Byte storage (spec/20_memory.md R62 to R68) as a list of (address, byte) in one canonical form:
addresses strictly rising and below 4096, no listed byte equal to 0, which is what an unlisted address reads as (the
reset contents, spec/10_state.md R46; log entry 16). -/

namespace Sys2Proof.Machine

/-- The byte at an address: the listed one, else 0 (R62, R46). -/
def Memory.read : List Host.Cell → Nat → Byte
  | [], _ => 0#8
  | (k, v) :: m, a => if k = a then v else Memory.read m a

/-- Store one byte, keeping the canonical form (R63: "nothing else changes"). -/
def Memory.write : List Host.Cell → Nat → Byte → List Host.Cell
  | [], a, b => if b = 0#8 then [] else [(a, b)]
  | (k, v) :: m, a, b =>
    if a < k then (if b = 0#8 then (k, v) :: m else (a, b) :: (k, v) :: m)
    else if a = k then (if b = 0#8 then m else (a, b) :: m)
    else (k, v) :: Memory.write m a b

/-- `len` bytes from `base`, ascending (R79). -/
def Memory.readBytes (m : List Host.Cell) (base len : Nat) : List Byte :=
  (List.range len).map fun j => Memory.read m (base + j)

/-- Store bytes at consecutive addresses from `base`, ascending (R79). -/
def Memory.writeBytes : List Host.Cell → Nat → List Byte → List Host.Cell
  | m, _, [] => m
  | m, base, b :: bs => Memory.writeBytes (Memory.write m base b) (base + 1) bs

/-- The canonical form above a lower bound on the addresses. -/
def Memory.wfFrom : Nat → List Host.Cell → Bool
  | _, [] => true
  | lo, (k, v) :: m => decide (lo ≤ k) && decide (k < 4096) && !(v == 0#8) && Memory.wfFrom (k + 1) m

/-- The canonical form of `MEM`: addresses strictly rising, all in `0x000..0xFFF` (R35), no byte listed that an unlisted
address would read as. -/
def Memory.wf (m : List Host.Cell) : Bool := Memory.wfFrom 0 m

end Sys2Proof.Machine
end

