-- ==== Sys2Proof/Machine/Ops.lean ====
section
/-! DEFINITION. The named operations over registers, memory, stack, timers and the random input that the meanings share
(spec/00_scope.md R12), and taking a fault (spec/60_exceptions.md R288). -/

namespace Sys2Proof.Machine

/-! ## Registers -/

/-- `V[r]` (R12, R21). -/
def State.getV (s : State) (r : Reg) : Byte := s.v.get r

/-- `V[r] <- b` (R12, R21: no register is hardwired). -/
def State.setV (s : State) (r : Reg) (b : Byte) : State := { s with v := s.v.set r.val b r.isLt }

/-- `I <- a` (R12, R27). -/
def State.setI (s : State) (a : Addr) : State := { s with i := a }

/-- `pc <- target` (R12, R24). -/
def State.setPc (s : State) (target : Word) : State := { s with pc := target }

/-- `DT <- b` (R30). -/
def State.setDt (s : State) (b : Byte) : State := { s with dt := b }

/-- `ST <- b` (R31). -/
def State.setSt (s : State) (b : Byte) : State := { s with st := b }

/-- Replace the framebuffer (R36). -/
def State.setFb (s : State) (fb : FrameBuffer) : State := { s with fb := fb }

/-- `DRAW_PENDING <- 1` (R32). -/
def State.requestDraw (s : State) : State := { s with drawPending := true }

/-- Replace the contents of `MEM`. -/
def State.setMem (s : State) (m : List Host.Cell) : State := { s with mem := m }

/-- `V[0..x]` take the given bytes, `V[j]` byte `j`; the others keep theirs (the register writes of R195). -/
def State.setLowVs (s : State) (x : Reg) (bytes : List Byte) : State :=
  { s with v := Vector.ofFn fun j : Fin 16 => if j.val ≤ x.val then bytes.getD j.val 0#8 else s.v.get j }

/-- `V0, ..., Vx` in ascending order (the source bytes of R194). -/
def State.lowVs (s : State) (x : Reg) : List Byte := s.v.toList.take (x.val + 1)

/-! ## Faults: taking one (R125, R288) -/

/-- `raise f`: the instruction has no effect and the `FAULT` latch records `f`; the core is halted from here on. There is
no handler, no saved register and no mode change (R288). The timer tick that R125 performs before the latch is set is the
tick's last phase; it neither reads nor writes the latch, so the two commute (log entry 14). There is no return from a
fault but reset (R290). -/
def State.raise (s : State) (f : Fault) : State := { s with fault := some f }

/-- The end of an execute phase that may fault (R124: it completes, or raises one fault and changes nothing). -/
def orRaise (s : State) : Except Fault State → Host.Outcome State Fault Refusal
  | .ok t => .next t
  | .error f => .next (s.raise f)

/-! ## Memory accesses (spec/20_memory.md) -/

/-- The byte of `MEM` at an address. -/
def State.byteAt (s : State) (a : Nat) : Byte := Memory.read s.mem a

/-- The range check of R62, R63, R70: an access to `len` bytes from `base` faults when its highest address passes
`0xFFF`, with the lowest address above `0xFFF` it would touch (R281). No access, no fault (R214). -/
def rangeFault (base len : Nat) : Option Fault :=
  if 0 < len ∧ 0xFFF < base + len - 1 then some (.memFault (BitVec.ofNat 16 (max base 0x1000))) else none

/-- Read `len` bytes from `base`, or the fault, the range being checked first (R62, R70). -/
def readBytes (s : State) (base len : Nat) : Except Fault (List Byte) :=
  match rangeFault base len with
  | some f => .error f
  | none => .ok (Memory.readBytes s.mem base len)

/-- Store bytes from `base`, or the fault with nothing written, the range being checked first (R63, R70). -/
def writeBytes (s : State) (base : Nat) (bytes : List Byte) : Except Fault State :=
  match rangeFault base bytes.length with
  | some f => .error f
  | none => .ok (s.setMem (Memory.writeBytes s.mem base bytes))

/-! ## The stack (R28, R29) -/

/-- `STACK[SP] <- w; SP <- SP + 1`, or `StackOverflow` when `SP = 16` (R143, R284). -/
def push (s : State) (w : Word) : Except Fault State :=
  if h : s.sp.val < 16 then
    .ok { s with stack := s.stack.set s.sp.val w h, sp := ⟨s.sp.val + 1, by omega⟩ }
  else .error .stackOverflow

/-- `SP <- SP - 1; pc <- STACK[SP]`, or `StackUnderflow` when `SP = 0`; the slot keeps its value (R141, R285). -/
def popPc (s : State) : Except Fault State :=
  if h : 0 < s.sp.val then
    .ok { s with sp := ⟨s.sp.val - 1, by omega⟩, pc := s.stack[s.sp.val - 1]'(by omega) }
  else .error .stackUnderflow

/-! ## Program counter -/

/-- Advance `pc` by one instruction: the fetch's advance and a taken skip (R122, R144). -/
def State.advance (s : State) : State := s.setPc (s.pc + 2#16)

/-- Skip the next instruction when the condition holds (R144). -/
def skipIf (c : Bool) (s : State) : State := if c then s.advance else s

/-- Undo the fetch's advance, so that the same instruction is fetched again (R232). -/
def State.redispatch (s : State) : State := s.setPc (s.pc - 2#16)

/-! ## Timers (spec/40_tick.md R126) -/

/-- A timer counts down to 0 and stays there. -/
def decTimer (t : Byte) : Byte := if t = 0#8 then 0#8 else t - 1#8

/-- The timer tick, the last phase of every tick that starts un-halted (R126). -/
def State.timerTick (s : State) : State :=
  { s with dt := decTimer s.dt, beepPending := s.beepPending || s.st == 1#8, st := decTimer s.st }

/-! ## The random input (R45, R171, R256; log entry 1) -/

/-- `rnd8()`: the byte this draw yields, the oldest byte the host supplied, or the free value when it supplied none. -/
def State.randomByte (s : State) : Byte :=
  match s.rndSupply with
  | b :: _ => b
  | [] => Config.freeRandomByte s.rndDraws

/-- One draw is consumed. -/
def State.consumeRandom (s : State) : State :=
  { s with rndSupply := s.rndSupply.tail, rndDraws := s.rndDraws + 1 }

end Sys2Proof.Machine
end

