-- ==== Sys2Proof/Machine/Operands.lean ====
section
/-! DEFINITION. The operand forms (spec/30_encoding.md R93, spec/43_index_memory.md R196): immediates are zero-extended
where they meet a wider value, addresses are exact or reduced as each rule says. -/

namespace Sys2Proof.Machine

/-- The jump target `nnn`, as a program counter value (R142, R143). -/
def jumpTarget (nnn : Addr) : Word := nnn.setWidth 16

/-- The jump target `nnn + zext_16(V[0])`, exact (R148). -/
def offsetTarget (nnn : Addr) (b : Byte) : Word := nnn.setWidth 16 + b.setWidth 16

/-- `(I + zext_12(b)) mod 4096` (R191). -/
def addIndex (i : Addr) (b : Byte) : Addr := i + b.setWidth 12

/-- The low nibble of a register, which names a key or a hex digit (R192, R230). -/
def lowNibble (b : Byte) : Fin 16 := ⟨b.toNat % 16, by omega⟩

/-- The address `5 * (b & 0xF)` of a hex digit's glyph (R192). -/
def glyphAddress (b : Byte) : Addr := BitVec.ofNat 12 (5 * (lowNibble b).val)

/-- The address the memory instructions start from: register-indirect through `I` (R69, R196). -/
def State.base (s : State) : Nat := s.i.toNat

/-- The three decimal digits of a byte, hundreds, tens, ones (R193). -/
def bcdDigits (b : Byte) : List Byte :=
  [BitVec.ofNat 8 (b.toNat / 100), BitVec.ofNat 8 (b.toNat / 10 % 10), BitVec.ofNat 8 (b.toNat % 10)]

/-- The sprite's start column `V[x] mod 64` (R211, R212). -/
def spriteCol (b : Byte) : Nat := b.toNat % 64

/-- The sprite's start row `V[y] mod 32` (R211, R212). -/
def spriteRow (b : Byte) : Nat := b.toNat % 32

/-- Key `k` is held (R37). -/
def State.keyHeld (s : State) (k : Fin 16) : Bool := s.keys.getLsbD k.val

/-- The least key held, scanning in ascending order (R232). -/
def State.lowestKey (s : State) : Option (Fin 16) := (List.finRange 16).find? fun k => s.keyHeld k

/-- A key number as a register value. -/
def keyByte (k : Fin 16) : Byte := BitVec.ofNat 8 k.val

end Sys2Proof.Machine
end

