-- ==== Sys2Proof/Machine/Flags.lean ====
section
/-! DEFINITION. The flag computations (spec/42_alu.md R172, R173): exact unsigned arithmetic, then the flag as a
comparison, written to `VF` after the result (spec/00_scope.md R14, R174). -/

namespace Sys2Proof.Machine

/-- A flag as the register value 0 or 1 (R22). -/
def flagByte (f : Bool) : Byte := if f then 1#8 else 0#8

/-- The carry of an addition: 1 exactly when the exact sum passes 255 (R166, R172). -/
def carryOut (a b : Byte) : Bool := decide (255 < a.toNat + b.toNat)

/-- The no-borrow flag of `a - b`: 1 exactly when `a >= b` (R167, R172). -/
def noBorrow (a b : Byte) : Bool := decide (b.toNat ≤ a.toNat)

/-- The bit a right shift shifts out, `a & 1` (R168). -/
def shrOut (a : Byte) : Bool := a.getLsbD 0

/-- The bit a left shift shifts out, `(a >> 7) & 1` (R170). -/
def shlOut (a : Byte) : Bool := a.getLsbD 7

/-- The register `VF`. -/
def flagReg : Reg := 15

/-- Write a result to `V[x]` and then a flag to `VF`; the flag write is last and stands (R14, R174). -/
def State.setWithFlag (s : State) (x : Reg) (result : Byte) (flag : Bool) : State :=
  (s.setV x result).setV flagReg (flagByte flag)

end Sys2Proof.Machine
end

