-- ==== Sys2Proof/Machine/Control.lean ====
section
/-! DEFINITION. Control-flow instructions (spec/41_control_flow.md): the execute phase, in which `pc` is already the
address of the instruction plus 2 (spec/40_tick.md R122). -/

namespace Sys2Proof.Machine

/-- `0000` NOP (R140). -/
def execNop (s : State) : Host.Outcome State Fault Refusal := .next s

/-- `00EE` RET (R141). -/
def execRet (s : State) : Host.Outcome State Fault Refusal := orRaise s (popPc s)

/-- `1nnn` JP nnn (R142). -/
def execJp (nnn : Addr) (s : State) : Host.Outcome State Fault Refusal := .next (s.setPc (jumpTarget nnn))

/-- `2nnn` CALL nnn: the pushed address is the post-fetch `pc` (R143). -/
def execCall (nnn : Addr) (s : State) : Host.Outcome State Fault Refusal :=
  orRaise s ((push s s.pc).map fun t => t.setPc (jumpTarget nnn))

/-- `3xkk` SE Vx, kk (R144). -/
def execSeImm (x : Reg) (kk : Byte) (s : State) : Host.Outcome State Fault Refusal :=
  .next (skipIf (s.getV x == kk) s)

/-- `4xkk` SNE Vx, kk (R145). -/
def execSneImm (x : Reg) (kk : Byte) (s : State) : Host.Outcome State Fault Refusal :=
  .next (skipIf (s.getV x != kk) s)

/-- `5xy0` SE Vx, Vy (R146). -/
def execSeReg (x y : Reg) (s : State) : Host.Outcome State Fault Refusal :=
  .next (skipIf (s.getV x == s.getV y) s)

/-- `9xy0` SNE Vx, Vy (R147). -/
def execSneReg (x y : Reg) (s : State) : Host.Outcome State Fault Refusal :=
  .next (skipIf (s.getV x != s.getV y) s)

/-- `Bnnn` JP V0, nnn: the sum is exact, not reduced modulo 4096 (R148). -/
def execJpV0 (nnn : Addr) (s : State) : Host.Outcome State Fault Refusal :=
  .next (s.setPc (offsetTarget nnn (s.getV 0)))

end Sys2Proof.Machine
end

