-- ==== Sys2Proof/Machine/Frame.lean ====
section
/-! DEFINITION. The framebuffer and the sprite engine (spec/44_display.md R211 to R217, spec/20_memory.md R78). -/

namespace Sys2Proof.Machine

/-- `FB[k]`: cell `k = row*64 + col` (R12, R36). -/
def Frame.cell (fb : FrameBuffer) (k : Nat) : Bool := (fb[k / 64 % 32]'(by omega)).getLsbD (k % 64)

/-- `FB[k] <- b`. -/
def Frame.setCell (fb : FrameBuffer) (k : Nat) (b : Bool) : FrameBuffer :=
  if Frame.cell fb k = b then fb
  else fb.set (k / 64 % 32) ((fb[k / 64 % 32]'(by omega)) ^^^ BitVec.twoPow 64 (k % 64)) (by omega)

/-- The blank framebuffer (R210). -/
def Frame.blank : FrameBuffer := Vector.replicate 32 0

/-- The cell that bit column `b` of sprite row `r` falls on: both coordinates wrap, pixel by pixel (R212). -/
def pixelCell (col row r b : Nat) : Nat := (row + r) % 32 * 64 + (col + b) % 64

/-- The sprite's pixel in bit column `b` of a row byte, bit 7 leftmost (R211). -/
def spriteBit (byte : Byte) (b : Nat) : Bool := byte.getLsbD (7 - b)

/-- One pixel of the loop of R211: XOR the bit into its cell, and note a collision. -/
def drawPixel (col row r : Nat) (byte : Byte) (a : FrameBuffer × Bool) (b : Nat) : FrameBuffer × Bool :=
  let k := pixelCell col row r b
  let old := Frame.cell a.1 k
  (Frame.setCell a.1 k (old ^^ spriteBit byte b), a.2 || (old && spriteBit byte b))

/-- One row of the sprite, left to right (R211). -/
def drawRow (col row r : Nat) (byte : Byte) (a : FrameBuffer × Bool) : FrameBuffer × Bool :=
  (List.range 8).foldl (drawPixel col row r byte) a

/-- The rows of the sprite from row `r` on, top first (R211). -/
def drawRows (col row : Nat) : Nat → List Byte → FrameBuffer × Bool → FrameBuffer × Bool
  | _, [], a => a
  | r, byte :: rest, a => drawRows col row (r + 1) rest (drawRow col row r byte a)

/-- Draw a sprite: the new framebuffer, and whether any set bit met a set cell (R211). -/
def drawSprite (fb : FrameBuffer) (col row : Nat) (sprite : List Byte) : FrameBuffer × Bool :=
  drawRows col row 0 sprite (fb, false)

end Sys2Proof.Machine
end

