-- ==== Sys2Proof/Machine/Display.lean ====
section
/-! DEFINITION. Display instructions (spec/44_display.md). -/

namespace Sys2Proof.Machine

/-- `00E0` CLS: `VF` and `DRAW_PENDING` are unchanged (R210). -/
def execCls (s : State) : Host.Outcome State Fault Refusal := .next (s.setFb Frame.blank)

/-- The effect of `Dxyn` once its sprite bytes are read: the framebuffer, the collision flag in `VF`, draw-pending (R211,
R213, R216). -/
def State.draw (s : State) (col row : Nat) (sprite : List Byte) : State :=
  let d := drawSprite s.fb col row sprite
  ((s.setFb d.1).setV flagReg (flagByte d.2)).requestDraw

/-- `Dxyn` DRW Vx, Vy, n: the coordinates are read before `VF` is written (R213), the whole sprite's range is checked
before anything changes (R215), no row when `n = 0` (R214). -/
def execDrw (x y : Reg) (n : Fin 16) (s : State) : Host.Outcome State Fault Refusal :=
  orRaise s ((readBytes s s.base n.val).map fun sprite =>
    s.draw (spriteCol (s.getV x)) (spriteRow (s.getV y)) sprite)

end Sys2Proof.Machine
end

