-- ==== Sys2Proof/Machine/Index.lean ====
section
/-! DEFINITION. Index register, BCD and memory-transfer instructions (spec/43_index_memory.md). Every multi-byte
instruction checks its whole range first (spec/20_memory.md R70); none of them modifies `I` except its three writers. -/

namespace Sys2Proof.Machine

/-- `Annn` LD I, nnn (R190). -/
def execLdI (nnn : Addr) (s : State) : Host.Outcome State Fault Refusal := .next (s.setI nnn)

/-- `Fx1E` ADD I, Vx: modulo 4096, `VF` unchanged (R191). -/
def execAddI (x : Reg) (s : State) : Host.Outcome State Fault Refusal :=
  .next (s.setI (addIndex s.i (s.getV x)))

/-- `Fx29` LD F, Vx: an address computation only (R192). -/
def execLdF (x : Reg) (s : State) : Host.Outcome State Fault Refusal :=
  .next (s.setI (glyphAddress (s.getV x)))

/-- `Fx33` LD B, Vx: the three decimal digits at `I`, `I+1`, `I+2` (R193). -/
def execLdB (x : Reg) (s : State) : Host.Outcome State Fault Refusal :=
  orRaise s (writeBytes s s.base (bcdDigits (s.getV x)))

/-- `Fx55` LD [I], Vx: `V0..Vx` to `I..I+x`, `I` unchanged (R194). -/
def execStRegs (x : Reg) (s : State) : Host.Outcome State Fault Refusal :=
  orRaise s (writeBytes s s.base (s.lowVs x))

/-- `Fx65` LD Vx, [I]: `V0..Vx` from `I..I+x`, `I` unchanged (R195). -/
def execLdRegs (x : Reg) (s : State) : Host.Outcome State Fault Refusal :=
  orRaise s ((readBytes s s.base (x.val + 1)).map fun bytes => s.setLowVs x bytes)

end Sys2Proof.Machine
end

