-- ==== Sys2Proof/Machine/Keypad.lean ====
section
/-! DEFINITION. Keypad and timer instructions (spec/45_keypad_timers.md). `KEY` is never written by the core (R37). -/

namespace Sys2Proof.Machine

/-- `Ex9E` SKP Vx: only the low nibble of `V[x]` selects the key (R230). -/
def execSkp (x : Reg) (s : State) : Host.Outcome State Fault Refusal :=
  .next (skipIf (s.keyHeld (lowNibble (s.getV x))) s)

/-- `ExA1` SKNP Vx (R231). -/
def execSknp (x : Reg) (s : State) : Host.Outcome State Fault Refusal :=
  .next (skipIf (!s.keyHeld (lowNibble (s.getV x))) s)

/-- `Fx0A` LD Vx, K: the lowest key held, else back to this instruction's own address (R232). -/
def execLdVxK (x : Reg) (s : State) : Host.Outcome State Fault Refusal :=
  match s.lowestKey with
  | some k => .next (s.setV x (keyByte k))
  | none => .next s.redispatch

/-- `Fx07` LD Vx, DT: the value before this tick's timer tick (R233). -/
def execLdVxDT (x : Reg) (s : State) : Host.Outcome State Fault Refusal := .next (s.setV x s.dt)

/-- `Fx15` LD DT, Vx (R234). -/
def execLdDTVx (x : Reg) (s : State) : Host.Outcome State Fault Refusal := .next (s.setDt (s.getV x))

/-- `Fx18` LD ST, Vx (R235). -/
def execLdSTVx (x : Reg) (s : State) : Host.Outcome State Fault Refusal := .next (s.setSt (s.getV x))

end Sys2Proof.Machine
end

