-- ==== Sys2Proof/Machine/Tick.lean ====
section
/-! DEFINITION. The tick (spec/40_tick.md R120): fetch, advance, decode, execute, timer tick. -/

namespace Sys2Proof.Machine

/-- Phase 1: `USED <- 1` (R120, R39). -/
def State.markUsed (s : State) : State := { s with used := true }

/-- Phase 2: the two bytes at `pc`, big-endian, or `MemFault(max(pc, 0x1000))` when `pc > 0xFFE` (R121). -/
def fetchWord (s : State) : Except Fault Word :=
  match rangeFault s.pc.toNat 2 with
  | some f => .error f
  | none => .ok (wordOfBytes (s.byteAt s.pc.toNat) (s.byteAt (s.pc.toNat + 1)))

/-- Phase 6 after phase 5: the timer tick on the state the execute phase answered (R125, R126). -/
def finishTick : Host.Outcome State Fault Refusal → Host.Outcome State Fault Refusal
  | .next t => .next t.timerTick
  | .fault f => .fault f
  | .refused r => .refused r

/-- Phases 3 to 5 on a fetched word: advance `pc`, decode, and apply the instruction's rule; an unknown word is the
`UnknownOpcode` fault, raised after the advance (R122, R123, R124). -/
def executeWord (op : Word) (s : State) : Host.Outcome State Fault Refusal :=
  match decode op with
  | some i => exec i s.advance
  | none => .next (s.advance.raise (.unknownOpcode op))

/-- Phases 2 to 5 (R120, R121). -/
def fetchAndExecute (s : State) : Host.Outcome State Fault Refusal :=
  match fetchWord s with
  | .ok op => executeWord op s
  | .error f => .next (s.raise f)

/-- `tick()` (R120): a halted core changes nothing (R132); otherwise phases 1 to 6, the timer tick on every path. -/
def tick (s : State) : Host.Outcome State Fault Refusal :=
  match s.fault with
  | some _ => .next s
  | none => finishTick (fetchAndExecute s.markUsed)

/-- The status a tick returns, read from the state it leaves: `none` is `ok`, otherwise the recorded fault (R127, R132,
R255; log entry 2). -/
def tickStatus (after : State) : Option Fault := after.fault

/-- The numbers R281 gives the statuses in the optional signal binding; 0 is `ok`. -/
def statusCode : Option Fault → Nat
  | none => 0
  | some (.unknownOpcode _) => 1
  | some (.memFault _) => 2
  | some .stackOverflow => 3
  | some .stackUnderflow => 4

/-- Where the next fetch reads once an instruction is placed: the program counter, or the entry point when no
instruction can be fetched at `pc` (`pc > 0xFFE`; log entry 17). -/
def fetchable (s : State) : State :=
  if s.pc.toNat ≤ 0xFFE then s else s.setPc (BitVec.ofNat 16 Config.progOrigin)

/-- Place an instruction word where the next tick fetches, on a core that is not halted (log entry 17). -/
def placeWord (s : State) (op : Word) : State :=
  let t := fetchable s
  { t with mem := Memory.writeBytes t.mem t.pc.toNat [highByte op, lowByte op], fault := none }

end Sys2Proof.Machine
end

