-- ==== Sys2Proof/Machine/HostOps.lean ====
section
/-! DEFINITION. The host operations (spec/50_host_interface.md R250): what the world outside the core can do between
two ticks. -/

namespace Sys2Proof.Machine

/-- The customary CHIP-8 hexadecimal font, the default of the parameter `FONT` (spec/10_state.md R47; from general
knowledge, not in the source: log entry 6). -/
def defaultFont : List Byte :=
  [0xF0, 0x90, 0x90, 0x90, 0xF0, 0x20, 0x60, 0x20, 0x20, 0x70, 0xF0, 0x10, 0xF0, 0x80, 0xF0, 0xF0, 0x10, 0xF0, 0x10, 0xF0]
  ++ [0x90, 0x90, 0xF0, 0x10, 0x10, 0xF0, 0x80, 0xF0, 0x10, 0xF0, 0xF0, 0x80, 0xF0, 0x90, 0xF0, 0xF0, 0x10, 0x20, 0x40, 0x40]
  ++ [0xF0, 0x90, 0xF0, 0x90, 0xF0, 0xF0, 0x90, 0xF0, 0x10, 0xF0, 0xF0, 0x90, 0xF0, 0x90, 0x90, 0xE0, 0x90, 0xE0, 0x90, 0xE0]
  ++ [0xF0, 0x80, 0x80, 0x80, 0xF0, 0xE0, 0x90, 0x90, 0x90, 0xE0, 0xF0, 0x80, 0xF0, 0x80, 0xF0, 0xF0, 0x80, 0xF0, 0x80, 0x80]

/-- Reset, `new()`: every item of the core's state takes its reset value, whatever it held (R251). The random source is
outside the core, so what the host has supplied and how often it was drawn stay (log entry 18). -/
def hostReset (s : State) : State :=
  { State.reset with rndSupply := s.rndSupply, rndDraws := s.rndDraws }

/-- What a load answers. -/
inductive LoadAnswer where
  /-- Admitted: the state after it (R252). -/
  | loaded (t : State)
  /-- More than 3584 bytes: the error kind `RomTooLarge`, no state changed (R253 (a), R300). -/
  | romTooLarge
  /-- The machine is used: undefined in the source, refused (R253 (b), U1). -/
  | notAdmitted
  deriving DecidableEq, Repr

/-- The state an admitted load leaves: font at `0x000`, program at `0x200`, `USED = 1`, nothing else changed (R252). -/
def install (font program : List Byte) (s : State) : State :=
  { s with
    mem := Memory.writeBytes (Memory.writeBytes s.mem Config.fontBase font) Config.progOrigin program
    used := true }

/-- Load (R252, R253). A load that is both too large and onto a used machine is refused (log entry 5). -/
def hostLoad (font program : List Byte) (s : State) : LoadAnswer :=
  if s.used then .notAdmitted
  else if programFits program then .loaded (install font program s)
  else .romTooLarge

/-- Key write: the host may set any subset of the 16 bits (R257). -/
def hostWriteKeys (keys : BitVec 16) (s : State) : State := { s with keys := keys }

/-- Set or clear one key of the latch (R257). -/
def hostSetKey (k : Fin 16) (held : Bool) (s : State) : State :=
  { s with keys := if s.keyHeld k = held then s.keys else s.keys ^^^ BitVec.twoPow 16 k.val }

/-- Clear draw-pending; the host never sets it (R258). -/
def hostClearDraw (s : State) : State := { s with drawPending := false }

/-- Clear beep-pending; the host never sets it (R259). -/
def hostClearBeep (s : State) : State := { s with beepPending := false }

/-- Supply one byte for a later `rnd8()` (R256). -/
def hostSupplyRandom (b : Byte) (s : State) : State := { s with rndSupply := s.rndSupply ++ [b] }

/-- The framebuffer view: 2048 values, each 0 or 1, value number `row*64 + col` being `FB[row*64 + col]` (R260). -/
def frameView (s : State) : List Byte := (List.range 2048).map fun k => flagByte (Frame.cell s.fb k)

/-- The operations of R250. The read operations say whether the flag is cleared as well (R258, R259). -/
inductive HostOp where
  | reset
  | load (program : List Byte)
  | tick
  | writeKeys (keys : BitVec 16)
  | setKey (k : Fin 16) (held : Bool)
  | readKeys
  | readDraw (clear : Bool)
  | readBeep (clear : Bool)
  | readFrame
  | supplyRandom (b : Byte)
  deriving DecidableEq, Repr

/-- What the host gets back. -/
inductive HostAnswer where
  | done
  /-- A tick's status: `none` is `ok` (R255). -/
  | status (f : Option Fault)
  | romTooLarge
  | keys (k : BitVec 16)
  | flag (b : Bool)
  | frame (cells : List Byte)
  deriving DecidableEq, Repr

/-- A tick as a host operation: the state and the status (R254, R255). -/
def hostTick (s : State) : Host.Outcome (State × HostAnswer) Fault Refusal :=
  match step s with
  | .next t => .next (t, .status (tickStatus t))
  | .fault f => .fault f
  | .refused r => .refused r

/-- Load as a host operation; onto a used machine the model has no transition (U1). -/
def hostLoadOp (font program : List Byte) (s : State) : Host.Outcome (State × HostAnswer) Fault Refusal :=
  match hostLoad font program s with
  | .loaded t => .next (t, .done)
  | .romTooLarge => .next (s, .romTooLarge)
  | .notAdmitted => .refused .loadOnUsedMachine

/-- One host operation, atomic, complete before the next starts (R250, R261). `font` is the constant the hardware's load
installs (R47). -/
def hostStep (font : List Byte) (op : HostOp) (s : State) : Host.Outcome (State × HostAnswer) Fault Refusal :=
  match op with
  | .reset => .next (hostReset s, .done)
  | .load program => hostLoadOp font program s
  | .tick => hostTick s
  | .writeKeys keys => .next (hostWriteKeys keys s, .done)
  | .setKey k held => .next (hostSetKey k held s, .done)
  | .readKeys => .next (s, .keys s.keys)
  | .readDraw clear => .next (if clear then hostClearDraw s else s, .flag s.drawPending)
  | .readBeep clear => .next (if clear then hostClearBeep s else s, .flag s.beepPending)
  | .readFrame => .next (s, .frame (frameView s))
  | .supplyRandom b => .next (hostSupplyRandom b s, .done)

end Sys2Proof.Machine
end

