-- ==== Sys2Proof/Safety.lean ====
section
/-! DEFINITION. The terms claims are stated in: the invariant of the machine, a safe run, what "nothing else changed"
means, and the spec's own reading of a tick and of a sprite, written independently of the machine's loops. -/

namespace Sys2Proof.Machine

/-! ## Invariant and safe runs -/

/-- What every step keeps: memory in canonical form (all addresses in `0x000..0xFFF`, R35), `PC` at most `0x10FE` (R24),
every stack slot a post-fetch address (at most `0x1000`, R122, R143), and a faulted machine is used (R39, R125). -/
def StateInv (s : State) : Prop :=
  Memory.wf s.mem = true ∧ s.pc.toNat ≤ 0x10FE ∧ (∀ k : Fin 16, (s.stack.get k).toNat ≤ 0x1000) ∧
    (s.fault ≠ none → s.used = true)

/-- A core that is not halted (R38). -/
def Running (s : State) : Prop := s.fault = none

/-- `k` ticks, if each answers a next state (R254). -/
def runTicks : Nat → State → Option State
  | 0, s => some s
  | k + 1, s =>
    match step s with
    | .next t => runTicks k t
    | .fault _ => none
    | .refused _ => none

/-- A run of `k` ticks is safe when none of them faults. The latch is sticky (R38), so the last state tells. -/
def SafeRun (k : Nat) (s : State) : Prop := ∃ t, runTicks k s = some t ∧ Running t

/-! ## Frames: what an instruction leaves unchanged (R16) -/

/-- Every byte of memory reads as before. -/
def SameMemory (s t : State) : Prop := ∀ a, t.byteAt a = s.byteAt a

/-- Nothing but general registers changed. -/
def OnlyRegs (s t : State) : Prop := t = { s with v := t.v } ∧ SameMemory s t

/-- Nothing but the program counter changed. -/
def OnlyPc (s t : State) : Prop := t = { s with pc := t.pc } ∧ SameMemory s t

/-- Nothing but the index register changed. -/
def OnlyIndex (s t : State) : Prop := t = { s with i := t.i } ∧ SameMemory s t

/-- Nothing but memory changed, and of it only bytes at addresses `base .. base+len-1`. -/
def OnlyMemory (base len : Nat) (s t : State) : Prop :=
  t = { s with mem := t.mem } ∧ ∀ a, (a < base ∨ base + len ≤ a) → t.byteAt a = s.byteAt a

/-- Every register but the named one is unchanged. -/
def OtherRegs (x : Reg) (s t : State) : Prop := ∀ r, r ≠ x → t.getV r = s.getV r

/-- Every register but `V[x]` and `VF` is unchanged. -/
def OtherRegsAndFlag (x : Reg) (s t : State) : Prop := ∀ r, r ≠ x → r ≠ flagReg → t.getV r = s.getV r

/-! ## The spec's reading of a tick -/

/-- The word at an address, big-endian (R65): `(mem[a] << 8) | mem[a+1]`. -/
def State.wordAt (s : State) (a : Nat) : Word :=
  BitVec.ofNat 16 ((s.byteAt a).toNat * 256 + (s.byteAt (a + 1)).toNat)

/-- The instruction the next tick executes, if it fetches (`pc <= 0xFFE`) and decodes one (R121, R123). -/
def nextInstr (s : State) : Option Instr :=
  if s.pc.toNat ≤ 0xFFE then decode (s.wordAt s.pc.toNat) else none

/-- The value of `DT` that phase 5 leaves: `V[x]` when the tick executes `Fx15`, else `DT` (R126, R234). -/
def delayAfterExecute (s : State) : Byte :=
  match nextInstr s with
  | some (.ldDTVx x) => s.getV x
  | _ => s.dt

/-- The value of `ST` that phase 5 leaves: `V[x]` when the tick executes `Fx18`, else `ST` (R126, R235). -/
def soundAfterExecute (s : State) : Byte :=
  match nextInstr s with
  | some (.ldSTVx x) => s.getV x
  | _ => s.st

/-- The state with the timer tick of R126 applied, in the rule's own words. -/
def timersTicked (s : State) : State :=
  { s with
    dt := BitVec.ofNat 8 (s.dt.toNat - 1)
    st := BitVec.ofNat 8 (s.st.toNat - 1)
    beepPending := s.beepPending || decide (s.st.toNat = 1) }

/-- The fault the execute phase of an instruction raises, by the complete table of R286. -/
def executeFault (i : Instr) (s : State) : Option Fault :=
  match i with
  | .call _ => if s.sp.val = 16 then some .stackOverflow else none
  | .ret => if s.sp.val = 0 then some .stackUnderflow else none
  | .drw _ _ n => if 0 < n.val ∧ 0xFFF < s.base + n.val - 1 then some (.memFault 0x1000) else none
  | .ldB _ => if 0xFFF < s.base + 2 then some (.memFault 0x1000) else none
  | .stRegs x => if 0xFFF < s.base + x.val then some (.memFault 0x1000) else none
  | .ldRegs x => if 0xFFF < s.base + x.val then some (.memFault 0x1000) else none
  | _ => none

/-- The fault a tick raises, the first met in phase order: fetch, decode, execute (R286, R287). -/
def tickFault (s : State) : Option Fault :=
  if 0xFFE < s.pc.toNat then some (.memFault (BitVec.ofNat 16 (max s.pc.toNat 0x1000)))
  else
    match decode (s.wordAt s.pc.toNat) with
    | none => some (.unknownOpcode (s.wordAt s.pc.toNat))
    | some i => executeFault i s

/-- The instructions that write `VF` as a flag (R22, R173). -/
def writesFlag : Instr → Bool
  | .addReg _ _ | .sub _ _ | .shr _ _ | .subn _ _ | .shl _ _ | .drw _ _ _ => true
  | _ => false

/-- An instruction names register `r` as its destination: its own `x` field, or one of `V[0..x]` for `Fx65` (R21, R22). -/
def writesReg (i : Instr) (r : Reg) : Bool :=
  match i with
  | .ldImm x _ | .addImm x _ | .rnd x _ => x == r
  | .ldReg x _ | .orReg x _ | .andReg x _ | .xorReg x _ | .addReg x _ | .sub x _ | .shr x _ | .subn x _
  | .shl x _ => x == r
  | .ldVxDT x | .ldVxK x => x == r
  | .ldRegs x => decide (r.val ≤ x.val)
  | _ => false

/-! ## The spec's reading of a sprite -/

/-- Whether the sprite of `n` rows at `I`, drawn at column `col` and row `row`, has a set bit on cell `k` of the
framebuffer, wrapping on both axes (R212, R217 (a)). -/
def spriteOn (s : State) (col row n k : Nat) : Bool :=
  let r := (k / 64 + 32 - row) % 32
  let b := (k % 64 + 64 - col) % 64
  decide (r < n) && decide (b < 8) && (s.byteAt (s.base + r)).getLsbD (7 - b)

end Sys2Proof.Machine
end

