-- ==== Sys2Proof/Certificates/Slice0/Obligations.lean ====
section
/-! DEFINITION. The statements for the provers. Each formalises rules of spec/ or follows from them; the docstring says
which. "Next state" is always `Host.Outcome.next`; `exec` is the execute phase, in which `pc` is already the address of
the instruction plus 2 (R122). -/

open Sys2Proof Sys2Proof.Machine

/-! ## Encoding -/

/-- Decoding the encoding of an instruction, as a word or as the first two bytes of a byte list, gives the instruction
back, with every operand (R90 to R96). That this includes the ignored `y` of `SHR` and `SHL` (R99) is the model's choice to
keep it as an operand, log entry 21. -/
def Obligations.DecodeInvertsEncode : Prop :=
  ∀ (i : Instr) (rest : List Byte),
    decode (encode i) = some i ∧ decodeBytes (encodeBytes i ++ rest) = .ok (i, rest)

/-- Each word has one meaning: a word that decodes is the encoding of what it decodes to, so no bit of it is dropped
(R98, R99). R98 calls the words of `SHR` and `SHL` that differ in the ignored `y` alternative encodings of one instruction;
that `encode` gives each of them back is the model's choice to keep `y` as an operand, log entry 21. -/
def Obligations.EncodeInvertsDecode : Prop :=
  ∀ (op : Word) (i : Instr), decode op = some i → encode i = op

/-- The opcode table of R96: 35 rows, pairwise disjoint; a word that decodes selects the row of its instruction's
mnemonic, a word that does not decode selects no row. -/
def Obligations.DecoderFollowsTheOpcodeTable : Prop :=
  opcodeTable.length = 35 ∧
  (∀ (op : Word), ∀ r ∈ opcodeTable, ∀ r' ∈ opcodeTable, r.selects op = true → r'.selects op = true → r = r') ∧
  (∀ (op : Word) (i : Instr), decode op = some i →
    ∃ r ∈ opcodeTable, r.mnemonic = i.mnemonic ∧ r.selects op = true) ∧
  (∀ (op : Word), decode op = none → ∀ r ∈ opcodeTable, r.selects op = false)

/-- A few words written out from the table of R96 and the examples of the instruction rules. -/
def Obligations.SpecWordsDecodeAsWritten : Prop :=
  decode 0x00EE = some .ret ∧ decode 0x1234 = some (.jp 0x234) ∧ decode 0x302A = some (.seImm 0 0x2A) ∧
  decode 0x7320 = some (.addImm 3 0x20) ∧ decode 0x8216 = some (.shr 2 1) ∧ decode 0xD125 = some (.drw 1 2 5) ∧
  decode 0xE09E = some (.skp 0) ∧ decode 0xF255 = some (.stRegs 2) ∧ decode 0x0123 = none ∧ decode 0x8AB8 = none

/-! ## The tick -/

/-- A step runs the decoded instruction: when the two bytes at `pc` decode to `i`, the step is `exec i` on the state with
`USED` set and `pc` advanced by 2, followed by the timer tick (R120 to R126). -/
def Obligations.StepRunsTheDecodedInstruction : Prop :=
  ∀ (s t : State) (i : Instr), Running s → s.pc.toNat ≤ 0xFFE → decode (s.wordAt s.pc.toNat) = some i →
    exec i { s with used := true, pc := s.pc + 2 } = .next t → step s = .next (timersTicked t)

/-- A tick on a halted core changes nothing and returns the recorded fault again (R132, the spec's decision D6; log
entry 2). -/
def Obligations.HaltedTickChangesNothing : Prop :=
  ∀ (s : State) (f : Fault), s.fault = some f → step s = .next s ∧ tickStatus s = some f

/-- Fetch reads the two bytes at `pc`, of either parity, the first being the high one; with `pc` above `0xFFE` it raises
`MemFault(max(pc, 0x1000))`, `pc` keeps its value, and nothing but `USED`, the timers, `BEEP_PENDING` and `FAULT` changes
(R121, R125, the spec's decisions D4 and D7; log entries 7, 14). -/
def Obligations.FetchIsBigEndianAndFaultsAboveFFE : Prop :=
  ∀ s : State, Running s →
    (s.pc.toNat ≤ 0xFFE → fetchWord s = .ok (s.wordAt s.pc.toNat)) ∧
    (0xFFE < s.pc.toNat → step s = .next { timersTicked s with
      used := true, fault := some (.memFault (BitVec.ofNat 16 (max s.pc.toNat 0x1000))) })

/-- A fetched word that selects no row of the table is `UnknownOpcode` with the whole word: `pc` is advanced by 2, the
timers ticked once, `USED` and `FAULT` set, nothing else changed (R282; the sticky latch and what a faulting
tick commits are the spec's decisions D6 and D7, log entries 2 and 14). -/
def Obligations.UnknownWordFaults : Prop :=
  ∀ s : State, Running s → s.pc.toNat ≤ 0xFFE →
    (∀ r ∈ opcodeTable, r.selects (s.wordAt s.pc.toNat) = false) →
    step s = .next { timersTicked s with
      used := true, pc := s.pc + 2, fault := some (.unknownOpcode (s.wordAt s.pc.toNat)) }

/-- Every tick of every state answers a next state: the model stops nowhere (R120, R125, R254; taking a fault as a next
state is the reading of log entry 2). -/
def Obligations.EveryTickAnswersANextState : Prop := ∀ s : State, ∃ t, step s = .next t

/-- The timer tick ends every tick that starts un-halted, a faulting one too: with `DT` and `ST` as phase 5 leaves them, a
timer above 0 goes down by 1, a timer at 0 stays, and `BEEP_PENDING` is set exactly when `ST` goes from 1 to 0
(R126; once per tick is the spec's decision D13, log entry 13, on a faulting tick too its decision D7, R125, log entry
14). -/
def Obligations.TimerTickEndsEveryTick : Prop :=
  ∀ s : State, Running s → ∃ t, step s = .next t ∧
    t.dt.toNat = (delayAfterExecute s).toNat - 1 ∧
    t.st.toNat = (soundAfterExecute s).toNat - 1 ∧
    t.beepPending = (s.beepPending || decide ((soundAfterExecute s).toNat = 1))

/-- `Fx15` immediately followed by `Fx07` reads `v - 1` for `v > 0`, else 0 (R129 (b); once per tick is the spec's decision
D13, log entry 13). -/
def Obligations.DelayTimerReadsBackOneLess : Prop :=
  ∀ (s : State) (x y : Reg), Running s → s.pc.toNat ≤ 0xFFC →
    decode (s.wordAt s.pc.toNat) = some (.ldDTVx x) → decode (s.wordAt (s.pc.toNat + 2)) = some (.ldVxDT y) →
    ∃ t u, step s = .next t ∧ step t = .next u ∧ (u.getV y).toNat = (s.getV x).toNat - 1

/-- A tick that waits for a key is a full tick: with no key held, `Fx0A` leaves `pc` at itself and runs the timer tick,
and nothing else changes but `USED` (R130, R232; once per tick is the spec's decision D13, log entry 13, and `KEY` unchanged its
decision D10, R37, log entry 12). -/
def Obligations.WaitingForAKeyIsAFullTick : Prop :=
  ∀ (s : State) (x : Reg), Running s → s.pc.toNat ≤ 0xFFE → decode (s.wordAt s.pc.toNat) = some (.ldVxK x) →
    (∀ k, s.keyHeld k = false) → step s = .next { timersTicked s with used := true }

/-! ## Invariants and whole-machine rules -/

/-- Every step keeps the invariant: memory canonical and inside `0x000..0xFFF`, `PC <= 0x10FE` (R24), stack slots at most
`0x1000`, a faulted machine used. -/
def Obligations.EveryStepKeepsTheInvariant : Prop := ∀ s t : State, StateInv s → step s = .next t → StateInv t

/-- The invariant holds after reset, and after the host's reset of any machine. -/
def Obligations.ResetMeetsTheInvariant : Prop := StateInv State.reset ∧ ∀ s : State, StateInv (hostReset s)

/-- No tick changes `KEY`; none takes `USED`, `DRAW_PENDING` or `BEEP_PENDING` from 1 to 0 or changes a recorded fault; a
tick of a running core sets `USED` (R32, R33, R37, R38, R39, the spec's decisions D6, D10, D14, D20; log entries 2, 12,
22). -/
def Obligations.TicksKeepHostStateAndLatches : Prop :=
  ∀ s : State, ∃ t, step s = .next t ∧ t.keys = s.keys ∧ (s.used = true → t.used = true) ∧
    (Running s → t.used = true) ∧ (s.drawPending = true → t.drawPending = true) ∧
    (s.beepPending = true → t.beepPending = true) ∧ (∀ f, s.fault = some f → t.fault = some f)

/-- Which instruction raises which fault, completely, and which fault a tick raises: the first met in the order fetch,
decode, execute (R286, R287, the spec's decision D21; log entry 23). -/
def Obligations.FaultsAreThoseOfTheTable : Prop :=
  (∀ (i : Instr) (s : State), Running s → ∃ t, exec i s = .next t ∧ t.fault = executeFault i s) ∧
  (∀ s : State, Running s → ∃ t, step s = .next t ∧ t.fault = tickFault s ∧ tickStatus t = tickFault s)

/-- Faults are precise: a faulting tick changes only `pc` (advanced, except on a fetch fault), the timers, `BEEP_PENDING`,
`USED` and `FAULT` (R125, R289, the spec's decision D7; log entry 14). -/
def Obligations.FaultingTickIsPrecise : Prop :=
  ∀ (s t : State) (f : Fault), Running s → step s = .next t → t.fault = some f →
    t = { timersTicked s with
      used := true, pc := (if 0xFFE < s.pc.toNat then s.pc else s.pc + 2), fault := some f }

/-- Closed world: the execute phase writes each piece of state only through the instructions that list it (R16, and the
"written by" column of R20, the spec's decision D16; log entry 20). -/
def Obligations.EachStateHasOnlyItsWriters : Prop :=
  ∀ (i : Instr) (s t : State), exec i s = .next t →
    (t.mem ≠ s.mem → ∃ x, i = .ldB x ∨ i = .stRegs x) ∧
    (t.fb ≠ s.fb → i = .cls ∨ ∃ x y n, i = .drw x y n) ∧
    (t.i ≠ s.i → (∃ nnn, i = .ldI nnn) ∨ ∃ x, i = .addI x ∨ i = .ldF x) ∧
    (t.stack ≠ s.stack → ∃ nnn, i = .call nnn) ∧
    (t.sp ≠ s.sp → i = .ret ∨ ∃ nnn, i = .call nnn) ∧
    (t.dt ≠ s.dt → ∃ x, i = .ldDTVx x) ∧
    (t.st ≠ s.st → ∃ x, i = .ldSTVx x) ∧
    (t.drawPending ≠ s.drawPending → ∃ x y n, i = .drw x y n) ∧
    t.keys = s.keys ∧ t.beepPending = s.beepPending ∧ t.used = s.used

/-- `VF` as a flag: after each of the six flag-writing instructions that does not fault, `VF` is 0 or 1, for every operand;
and no instruction changes a register other than its own destination, except those six writing `VF` (R173, R22, R21). The second half, over
every register and instruction, is the closed-world rule R16, the spec's decision D16, log entry 20. -/
def Obligations.FlagRegisterRule : Prop :=
  (∀ (i : Instr) (s : State), writesFlag i = true → Running s →
    ∃ t, exec i s = .next t ∧ (t.fault = none → t.getV flagReg = 0 ∨ t.getV flagReg = 1)) ∧
  (∀ (i : Instr) (s t : State) (r : Reg), exec i s = .next t → t.getV r ≠ s.getV r →
    writesReg i r = true ∨ (r = flagReg ∧ writesFlag i = true))

/-- The random byte is read by `Cxkk` and by nothing else: every other instruction does the same whatever bytes are
supplied and however many were drawn (R45, R171, the spec's decision D12; the supply is the model's form of the input, log
entry 1). -/
def Obligations.OnlyRndReadsTheRandomInput : Prop :=
  ∀ (i : Instr), (∀ x kk, i ≠ .rnd x kk) → ∀ (s : State) (l : List Byte) (n : Nat),
    ∃ t, exec i s = .next t ∧ t.rndSupply = s.rndSupply ∧ t.rndDraws = s.rndDraws ∧
      exec i { s with rndSupply := l, rndDraws := n } = .next { t with rndSupply := l, rndDraws := n }

/-- Nothing in the core depends on the value of `DRAW_PENDING` or `BEEP_PENDING`: two machines that differ only there
differ only there after a tick (R258, R259). -/
def Obligations.PendingSignalsAreNeverRead : Prop :=
  ∀ (s : State) (d b : Bool), ∃ t t', step s = .next t ∧
    step { s with drawPending := d, beepPending := b } = .next t' ∧
    t' = { t with drawPending := t'.drawPending, beepPending := t'.beepPending }

/-! ## Memory primitives -/

/-- `MemRead` and `MemWrite` of one byte: in range, the byte is read or stored and nothing else changes; above `0xFFF`,
`MemFault` with that address, and nothing is written (R62, R63, the spec's decision D4; log
entry 7). Stated of canonical memories, which every step keeps. -/
def Obligations.OneByteAccesses : Prop :=
  ∀ (s : State) (a : Nat) (v : Byte), Memory.wf s.mem = true →
    (a ≤ 0xFFF → readBytes s a 1 = .ok [s.byteAt a] ∧
      ∃ t, writeBytes s a [v] = .ok t ∧ t.byteAt a = v ∧ OnlyMemory a 1 s t ∧ Memory.wf t.mem = true) ∧
    (0xFFF < a → a ≤ 0x10FF → readBytes s a 1 = .error (.memFault (BitVec.ofNat 16 a)) ∧
      writeBytes s a [v] = .error (.memFault (BitVec.ofNat 16 a)))

/-- A store is seen by the next fetch: after `Fx55` has stored over the bytes at `a` and `a+1`, fetching there reads the
stored registers as the instruction word (R75). -/
def Obligations.StoresAreSeenByFetch : Prop :=
  ∀ (s : State) (x j k : Reg), Memory.wf s.mem = true → s.base + x.val ≤ 0xFFF → k.val ≤ x.val → k.val = j.val + 1 →
    ∃ t, exec (.stRegs x) s = .next t ∧
      fetchWord (t.setPc (BitVec.ofNat 16 (s.base + j.val))) =
        .ok (BitVec.ofNat 16 ((s.getV j).toNat * 256 + (s.getV k).toNat))

/-! ## Register, arithmetic, logic, shift, random (spec/42_alu.md) -/

/-- `6xkk`, `7xkk`, `8xy0`: one register is written, nothing else changes, `VF` included unless it is `V[x]` (R160, R161,
R162). -/
def Obligations.LoadsAndImmediateAdd : Prop :=
  (∀ x kk, decode (encodeRI 0x6 x kk) = some (.ldImm x kk)) ∧
  (∀ x kk, decode (encodeRI 0x7 x kk) = some (.addImm x kk)) ∧
  (∀ x y, decode (encodeRRN 0x8 x y 0x0) = some (.ldReg x y)) ∧
  ∀ (s : State) (x y : Reg) (kk : Byte),
    (∃ t, exec (.ldImm x kk) s = .next t ∧ t.getV x = kk ∧ OtherRegs x s t ∧ OnlyRegs s t) ∧
    (∃ t, exec (.addImm x kk) s = .next t ∧ (t.getV x).toNat = ((s.getV x).toNat + kk.toNat) % 256 ∧
      OtherRegs x s t ∧ OnlyRegs s t) ∧
    (∃ t, exec (.ldReg x y) s = .next t ∧ t.getV x = s.getV y ∧ OtherRegs x s t ∧ OnlyRegs s t)

/-- `8xy1`, `8xy2`, `8xy3`: bitwise, and `VF` is not reset (R163, R164, R165; that an unlisted effect on `VF` does not
happen is R3 (e) and R16, the spec's decision D16, log entry 20). -/
def Obligations.LogicInstructions : Prop :=
  (∀ x y, decode (encodeRRN 0x8 x y 0x1) = some (.orReg x y)) ∧
  (∀ x y, decode (encodeRRN 0x8 x y 0x2) = some (.andReg x y)) ∧
  (∀ x y, decode (encodeRRN 0x8 x y 0x3) = some (.xorReg x y)) ∧
  ∀ (s : State) (x y : Reg),
    (∃ t, exec (.orReg x y) s = .next t ∧
      (∀ b, (t.getV x).getLsbD b = ((s.getV x).getLsbD b || (s.getV y).getLsbD b)) ∧ OtherRegs x s t ∧ OnlyRegs s t) ∧
    (∃ t, exec (.andReg x y) s = .next t ∧
      (∀ b, (t.getV x).getLsbD b = ((s.getV x).getLsbD b && (s.getV y).getLsbD b)) ∧ OtherRegs x s t ∧ OnlyRegs s t) ∧
    (∃ t, exec (.xorReg x y) s = .next t ∧
      (∀ b, (t.getV x).getLsbD b = ((s.getV x).getLsbD b ^^ (s.getV y).getLsbD b)) ∧ OtherRegs x s t ∧ OnlyRegs s t)

/-- `8xy4`: the sum modulo 256 in `V[x]` (lost when `x = 0xF`), the carry in `VF`, written last (R166, R174; that the
flag stands for `x = F` is the spec's decision D8, log entry 10). -/
def Obligations.AddWithCarry : Prop :=
  (∀ x y, decode (encodeRRN 0x8 x y 0x4) = some (.addReg x y)) ∧
  ∀ (s : State) (x y : Reg), ∃ t, exec (.addReg x y) s = .next t ∧
    (x ≠ flagReg → (t.getV x).toNat = ((s.getV x).toNat + (s.getV y).toNat) % 256) ∧
    (t.getV flagReg).toNat = (if 255 < (s.getV x).toNat + (s.getV y).toNat then 1 else 0) ∧
    OtherRegsAndFlag x s t ∧ OnlyRegs s t

/-- `8xy5` and `8xy7`: the difference modulo 256 in `V[x]`, the no-borrow flag of the OLD values in `VF`, written last
(R167, R169, R174; that the flag stands for `x = F` is the spec's decision D8, log entry 10). -/
def Obligations.SubtractWithNoBorrowFlag : Prop :=
  (∀ x y, decode (encodeRRN 0x8 x y 0x5) = some (.sub x y)) ∧
  (∀ x y, decode (encodeRRN 0x8 x y 0x7) = some (.subn x y)) ∧
  ∀ (s : State) (x y : Reg),
    (∃ t, exec (.sub x y) s = .next t ∧
      (x ≠ flagReg → (t.getV x).toNat = ((s.getV x).toNat + 256 - (s.getV y).toNat) % 256) ∧
      (t.getV flagReg).toNat = (if (s.getV y).toNat ≤ (s.getV x).toNat then 1 else 0) ∧
      OtherRegsAndFlag x s t ∧ OnlyRegs s t) ∧
    (∃ t, exec (.subn x y) s = .next t ∧
      (x ≠ flagReg → (t.getV x).toNat = ((s.getV y).toNat + 256 - (s.getV x).toNat) % 256) ∧
      (t.getV flagReg).toNat = (if (s.getV x).toNat ≤ (s.getV y).toNat then 1 else 0) ∧
      OtherRegsAndFlag x s t ∧ OnlyRegs s t)

/-- `8xy6` and `8xyE`: `V[x]` is shifted in place by one, the bit shifted out goes to `VF`, written last; `y` is ignored
(R168, R170, R174, R99; that the flag stands for `x = F` is the spec's decision D8, log entry 10). -/
def Obligations.ShiftsInPlace : Prop :=
  (∀ x y, decode (encodeRRN 0x8 x y 0x6) = some (.shr x y)) ∧
  (∀ x y, decode (encodeRRN 0x8 x y 0xE) = some (.shl x y)) ∧
  ∀ (s : State) (x : Reg),
    (∃ t, (∀ y, exec (.shr x y) s = .next t) ∧
      (x ≠ flagReg → (t.getV x).toNat = (s.getV x).toNat / 2) ∧
      (t.getV flagReg).toNat = (s.getV x).toNat % 2 ∧ OtherRegsAndFlag x s t ∧ OnlyRegs s t) ∧
    (∃ t, (∀ y, exec (.shl x y) s = .next t) ∧
      (x ≠ flagReg → (t.getV x).toNat = (s.getV x).toNat * 2 % 256) ∧
      (t.getV flagReg).toNat = (s.getV x).toNat / 128 ∧ OtherRegsAndFlag x s t ∧ OnlyRegs s t)

/-- `Cxkk`: `V[x]` gets the drawn byte masked by `kk`, and exactly one draw is consumed; the draw is the oldest byte the
host supplied, so it can be any byte, and the free value when none is supplied (R171; the supply is the model's form of
the input, log entry 1). -/
def Obligations.RandomByteIsMaskedAndConsumed : Prop :=
  (∀ x kk, decode (encodeRI 0xC x kk) = some (.rnd x kk)) ∧
  ∀ (s : State) (x : Reg) (kk : Byte),
    (∀ (r : Byte) (l : List Byte), s.rndSupply = r :: l →
      ∃ t, exec (.rnd x kk) s = .next t ∧ t.getV x = r &&& kk ∧ OtherRegs x s t ∧ SameMemory s t ∧
        t = { s with v := t.v, rndSupply := l, rndDraws := s.rndDraws + 1 }) ∧
    (s.rndSupply = [] →
      ∃ t, exec (.rnd x kk) s = .next t ∧ t.getV x = Config.freeRandomByte s.rndDraws &&& kk ∧ OtherRegs x s t ∧
        SameMemory s t ∧ t = { s with v := t.v, rndDraws := s.rndDraws + 1 })

/-! ## Control flow (spec/41_control_flow.md) -/

/-- `0000` changes nothing; `1nnn` and `Bnnn` write `pc` and nothing else, the sum `nnn + V[0]` being exact (R140, R142,
R148; not reducing it is the spec's decision D3, log entry 9). -/
def Obligations.NopAndJumps : Prop :=
  decode 0x0000 = some .nop ∧
  (∀ nnn, decode (encodeA 0x1 nnn) = some (.jp nnn)) ∧ (∀ nnn, decode (encodeA 0xB nnn) = some (.jpV0 nnn)) ∧
  ∀ (s : State) (nnn : Addr),
    exec .nop s = .next s ∧
    (∃ t, exec (.jp nnn) s = .next t ∧ t.pc.toNat = nnn.toNat ∧ OnlyPc s t) ∧
    (∃ t, exec (.jpV0 nnn) s = .next t ∧ t.pc.toNat = nnn.toNat + (s.getV 0).toNat ∧ OnlyPc s t)

/-- `2nnn`: the post-fetch `pc` is pushed, `SP` goes up by 1, `pc` is `nnn`; on a full stack `StackOverflow` and nothing is
written (R143, R284; the fault is the spec's decision D5, log entry 8). -/
def Obligations.CallPushesTheReturnAddress : Prop :=
  (∀ nnn, decode (encodeA 0x2 nnn) = some (.call nnn)) ∧
  ∀ (s : State) (nnn : Addr),
    (s.sp.val < 16 → ∃ t, exec (.call nnn) s = .next t ∧ t.pc.toNat = nnn.toNat ∧ t.sp.val = s.sp.val + 1 ∧
      (∀ k : Fin 16, t.stack.get k = if k.val = s.sp.val then s.pc else s.stack.get k) ∧
      t = { s with pc := t.pc, sp := t.sp, stack := t.stack } ∧ SameMemory s t) ∧
    (s.sp.val = 16 → exec (.call nnn) s = .next { s with fault := some .stackOverflow })

/-- `00EE`: `SP` goes down by 1, `pc` is the slot at the new `SP`, which keeps its value; on an empty stack
`StackUnderflow` and nothing is written (R141, R285; the fault is the spec's decision D5, log entry 8). -/
def Obligations.RetPopsTheReturnAddress : Prop :=
  decode 0x00EE = some .ret ∧
  ∀ s : State,
    (∀ k : Fin 16, s.sp.val = k.val + 1 → ∃ t, exec .ret s = .next t ∧ t.pc = s.stack.get k ∧ t.sp.val = k.val ∧
      t = { s with pc := t.pc, sp := t.sp } ∧ SameMemory s t) ∧
    (s.sp.val = 0 → exec .ret s = .next { s with fault := some .stackUnderflow })

/-- Call and return balance: whatever the subroutine does, if it comes to its `RET` with `SP` and its own return slot as
the `CALL` left them, the `RET` gives back the `SP` before the `CALL` and the address immediately after it (R149). -/
def Obligations.RetReturnsAfterTheCall : Prop :=
  ∀ (s : State) (nnn : Addr), s.sp.val < 16 → ∃ t, exec (.call nnn) s = .next t ∧
    ∀ u : State, u.sp = t.sp → (∀ k : Fin 16, k.val = s.sp.val → u.stack.get k = t.stack.get k) →
      ∃ w, exec .ret u = .next w ∧ w.pc = s.pc ∧ w.sp = s.sp ∧ w = { u with pc := w.pc, sp := w.sp }

/-- `3xkk`, `4xkk`, `5xy0`, `9xy0`: a taken skip adds 2 to the post-fetch `pc`; nothing else changes (R144 to R147). -/
def Obligations.RegisterSkips : Prop :=
  (∀ x kk, decode (encodeRI 0x3 x kk) = some (.seImm x kk)) ∧ (∀ x kk, decode (encodeRI 0x4 x kk) = some (.sneImm x kk)) ∧
  (∀ x y, decode (encodeRRN 0x5 x y 0x0) = some (.seReg x y)) ∧
  (∀ x y, decode (encodeRRN 0x9 x y 0x0) = some (.sneReg x y)) ∧
  ∀ (s : State) (x y : Reg) (kk : Byte),
    (∃ t, exec (.seImm x kk) s = .next t ∧ t.pc = (if s.getV x = kk then s.pc + 2 else s.pc) ∧ OnlyPc s t) ∧
    (∃ t, exec (.sneImm x kk) s = .next t ∧ t.pc = (if s.getV x ≠ kk then s.pc + 2 else s.pc) ∧ OnlyPc s t) ∧
    (∃ t, exec (.seReg x y) s = .next t ∧ t.pc = (if s.getV x = s.getV y then s.pc + 2 else s.pc) ∧ OnlyPc s t) ∧
    (∃ t, exec (.sneReg x y) s = .next t ∧ t.pc = (if s.getV x ≠ s.getV y then s.pc + 2 else s.pc) ∧ OnlyPc s t)

/-! ## Index register and memory transfer (spec/43_index_memory.md) -/

/-- `Annn`, `Fx1E`, `Fx29` write `I` and nothing else, `VF` included (R190, R191, R192). -/
def Obligations.IndexRegisterWriters : Prop :=
  (∀ nnn, decode (encodeA 0xA nnn) = some (.ldI nnn)) ∧ (∀ x, decode (encodeRI 0xF x 0x1E) = some (.addI x)) ∧
  (∀ x, decode (encodeRI 0xF x 0x29) = some (.ldF x)) ∧
  ∀ (s : State) (nnn : Addr) (x : Reg),
    (∃ t, exec (.ldI nnn) s = .next t ∧ t.i = nnn ∧ OnlyIndex s t) ∧
    (∃ t, exec (.addI x) s = .next t ∧ t.i.toNat = (s.i.toNat + (s.getV x).toNat) % 4096 ∧ OnlyIndex s t) ∧
    (∃ t, exec (.ldF x) s = .next t ∧ t.i.toNat = 5 * ((s.getV x).toNat % 16) ∧ OnlyIndex s t)

/-- `Fx33`: the hundreds, tens and ones digits of `V[x]` at `I`, `I+1`, `I+2`, nothing else changes, and the BCD law; with
`I + 2 > 0xFFF`, `MemFault(0x1000)` and nothing is written (R193; the fault is the spec's decision D4, log entry 7). -/
def Obligations.BcdStoresThreeDigits : Prop :=
  (∀ x, decode (encodeRI 0xF x 0x33) = some (.ldB x)) ∧
  ∀ (s : State) (x : Reg), Memory.wf s.mem = true →
    (s.i.toNat + 2 ≤ 0xFFF → ∃ t, exec (.ldB x) s = .next t ∧
      (t.byteAt s.i.toNat).toNat = (s.getV x).toNat / 100 ∧
      (t.byteAt (s.i.toNat + 1)).toNat = (s.getV x).toNat / 10 % 10 ∧
      (t.byteAt (s.i.toNat + 2)).toNat = (s.getV x).toNat % 10 ∧
      (t.byteAt s.i.toNat).toNat * 100 + (t.byteAt (s.i.toNat + 1)).toNat * 10 + (t.byteAt (s.i.toNat + 2)).toNat
        = (s.getV x).toNat ∧
      OnlyMemory s.i.toNat 3 s t) ∧
    (0xFFF < s.i.toNat + 2 → exec (.ldB x) s = .next { s with fault := some (.memFault 0x1000) })

/-- `Fx55`: `V0..Vx` at `I..I+x`, `I` and every register unchanged, every other byte too; with `I + x > 0xFFF`,
`MemFault(0x1000)` and nothing is written (R194; the fault is the spec's decision D4, log entry 7). -/
def Obligations.StoreRegisters : Prop :=
  (∀ x, decode (encodeRI 0xF x 0x55) = some (.stRegs x)) ∧
  ∀ (s : State) (x : Reg), Memory.wf s.mem = true →
    (s.i.toNat + x.val ≤ 0xFFF → ∃ t, exec (.stRegs x) s = .next t ∧
      (∀ j : Reg, j.val ≤ x.val → t.byteAt (s.i.toNat + j.val) = s.getV j) ∧ OnlyMemory s.i.toNat (x.val + 1) s t) ∧
    (0xFFF < s.i.toNat + x.val → exec (.stRegs x) s = .next { s with fault := some (.memFault 0x1000) })

/-- `Fx65`: `V0..Vx` from `I..I+x`, every other register, `I` and memory unchanged; with `I + x > 0xFFF`,
`MemFault(0x1000)` and no register is written (R195; the fault is the spec's decision D4, log entry 7). -/
def Obligations.LoadRegisters : Prop :=
  (∀ x, decode (encodeRI 0xF x 0x65) = some (.ldRegs x)) ∧
  ∀ (s : State) (x : Reg),
    (s.i.toNat + x.val ≤ 0xFFF → ∃ t, exec (.ldRegs x) s = .next t ∧
      (∀ j : Reg, t.getV j = if j.val ≤ x.val then s.byteAt (s.i.toNat + j.val) else s.getV j) ∧ OnlyRegs s t) ∧
    (0xFFF < s.i.toNat + x.val → exec (.ldRegs x) s = .next { s with fault := some (.memFault 0x1000) })

/-- Store/load symmetry: `Fx55` then `Fx65` with the same `x` and `I` changes no register and nothing else after the store
(R195). -/
def Obligations.StoreThenLoadIsIdentity : Prop :=
  ∀ (s : State) (x : Reg), Memory.wf s.mem = true → s.i.toNat + x.val ≤ 0xFFF →
    ∃ t, exec (.stRegs x) s = .next t ∧ exec (.ldRegs x) t = .next t ∧ ∀ r, t.getV r = s.getV r

/-! ## Display (spec/44_display.md) -/

/-- `00E0` zeroes every cell and changes nothing else, `VF` and `DRAW_PENDING` included; twice equals once (R210;
that `DRAW_PENDING` is not set is R16, the spec's decision D16, log entry 20). -/
def Obligations.ClearScreen : Prop :=
  decode 0x00E0 = some .cls ∧
  ∀ s : State, ∃ t, exec .cls s = .next t ∧ (∀ k, k < 2048 → Frame.cell t.fb k = false) ∧
    t = { s with fb := t.fb } ∧ SameMemory s t ∧ exec .cls t = .next t

/-- `Dxyn`: every cell becomes its old value XOR the sprite's bit on it, wrapping on both axes, from the coordinates the
registers held before; `VF` is 1 exactly when a set bit met a set cell, else 0; `DRAW_PENDING` is set; nothing else
changes. A sprite that passes `0xFFF` is `MemFault(0x1000)` and nothing changes; `n = 0` reads nothing and never faults
(R211, R214, R215, R216; the coordinates read before `VF` is written are the spec's decision D9, log entry 11, the
fault its decision D4, log entry 7). -/
def Obligations.DrawXorsTheSprite : Prop :=
  (∀ x y n, decode (encodeRRN 0xD x y n) = some (.drw x y n)) ∧
  ∀ (s : State) (x y : Reg) (n : Fin 16),
    (n.val = 0 ∨ s.i.toNat + n.val - 1 ≤ 0xFFF → ∃ t, exec (.drw x y n) s = .next t ∧
      (∀ k, k < 2048 → Frame.cell t.fb k =
        (Frame.cell s.fb k ^^ spriteOn s ((s.getV x).toNat % 64) ((s.getV y).toNat % 32) n.val k)) ∧
      (t.getV flagReg = 1 ↔ ∃ k, k < 2048 ∧ Frame.cell s.fb k = true ∧
        spriteOn s ((s.getV x).toNat % 64) ((s.getV y).toNat % 32) n.val k = true) ∧
      (t.getV flagReg = 0 ∨ t.getV flagReg = 1) ∧ t.drawPending = true ∧ OtherRegs flagReg s t ∧ SameMemory s t ∧
      t = { s with v := t.v, fb := t.fb, drawPending := true }) ∧
    (0 < n.val ∧ 0xFFF < s.i.toNat + n.val - 1 →
      exec (.drw x y n) s = .next { s with fault := some (.memFault 0x1000) })

/-- Drawing a sprite twice at the same position restores the framebuffer, and the second draw collides exactly when some
set sprite bit lies on a cell that was 0 before the first (R217 (b), (c)). The second draw may name any registers, `VF`
too, that give the same position after the first. With `x` or `y` = F the first draw is placed by the `VF` held before it: the
spec's decision D9 (R213), log entry 11. -/
def Obligations.DrawTwiceRestores : Prop :=
  ∀ (s : State) (x y : Reg) (n : Fin 16), (n.val = 0 ∨ s.i.toNat + n.val - 1 ≤ 0xFFF) →
    ∃ t, exec (.drw x y n) s = .next t ∧ ∀ x' y' : Reg,
      (t.getV x').toNat % 64 = (s.getV x).toNat % 64 → (t.getV y').toNat % 32 = (s.getV y).toNat % 32 →
      ∃ u, exec (.drw x' y' n) t = .next u ∧ u.fb = s.fb ∧
        (u.getV flagReg = 1 ↔ ∃ k, k < 2048 ∧ Frame.cell s.fb k = false ∧
          spriteOn s ((s.getV x).toNat % 64) ((s.getV y).toNat % 32) n.val k = true)

/-- The positions of one draw are pairwise distinct cells of the framebuffer, and a sprite drawn at `(65, 34)` starts at
column 1, row 2 (R212). -/
def Obligations.SpritePositionsAreDistinct : Prop :=
  (∀ col row r b r' b', r < 15 → r' < 15 → b < 8 → b' < 8 →
    pixelCell col row r b = pixelCell col row r' b' → r = r' ∧ b = b') ∧
  (∀ col row r b, pixelCell col row r b < 2048) ∧
  pixelCell (spriteCol 65) (spriteRow 34) 0 0 = 2 * 64 + 1

/-! ## Keypad and timers (spec/45_keypad_timers.md) -/

/-- `Ex9E` and `ExA1`: the low nibble of `V[x]` selects the key; nothing but `pc` changes (R230, R231). -/
def Obligations.KeySkips : Prop :=
  (∀ x, decode (encodeRI 0xE x 0x9E) = some (.skp x)) ∧ (∀ x, decode (encodeRI 0xE x 0xA1) = some (.sknp x)) ∧
  ∀ (s : State) (x k : Reg), k.val = (s.getV x).toNat % 16 →
    (∃ t, exec (.skp x) s = .next t ∧ t.pc = (if s.keyHeld k = true then s.pc + 2 else s.pc) ∧ OnlyPc s t) ∧
    (∃ t, exec (.sknp x) s = .next t ∧ t.pc = (if s.keyHeld k = false then s.pc + 2 else s.pc) ∧ OnlyPc s t)

/-- `Fx0A`: with a key held, `V[x]` is the least one held; with none, `pc` goes back by 2; nothing else changes
(R232; that `KEY` is unchanged is R37, the spec's decision D10, log entry 12). -/
def Obligations.WaitForKey : Prop :=
  (∀ x, decode (encodeRI 0xF x 0x0A) = some (.ldVxK x)) ∧
  ∀ (s : State) (x : Reg),
    (∀ k : Fin 16, s.keyHeld k = true → (∀ j, j < k → s.keyHeld j = false) →
      ∃ t, exec (.ldVxK x) s = .next t ∧ (t.getV x).toNat = k.val ∧ OtherRegs x s t ∧ OnlyRegs s t) ∧
    ((∀ k, s.keyHeld k = false) → ∃ t, exec (.ldVxK x) s = .next t ∧ t.pc = s.pc - 2 ∧ OnlyPc s t)

/-- `Fx07`, `Fx15`, `Fx18` move a byte between a register and a timer; nothing else changes in the execute phase (R233,
R234, R235). -/
def Obligations.TimerRegisters : Prop :=
  (∀ x, decode (encodeRI 0xF x 0x07) = some (.ldVxDT x)) ∧ (∀ x, decode (encodeRI 0xF x 0x15) = some (.ldDTVx x)) ∧
  (∀ x, decode (encodeRI 0xF x 0x18) = some (.ldSTVx x)) ∧
  ∀ (s : State) (x : Reg),
    (∃ t, exec (.ldVxDT x) s = .next t ∧ t.getV x = s.dt ∧ OtherRegs x s t ∧ OnlyRegs s t) ∧
    (∃ t, exec (.ldDTVx x) s = .next t ∧ t.dt = s.getV x ∧ t = { s with dt := t.dt } ∧ SameMemory s t) ∧
    (∃ t, exec (.ldSTVx x) s = .next t ∧ t.st = s.getV x ∧ t = { s with st := t.st } ∧ SameMemory s t)

/-! ## Host operations (spec/50_host_interface.md) -/

/-- What reset leaves, whatever the machine held (R46, R251). `FAULT` none and `USED` 0 are values of the spec's decisions D6
and D14, log entries 2 and 5. -/
def Obligations.ResetValues : Prop :=
  ∀ (font : List Byte) (s : State), ∃ t, hostStep font .reset s = .next (t, .done) ∧
    (∀ a, t.byteAt a = 0) ∧ (∀ r, t.getV r = 0) ∧ t.i = 0 ∧ t.pc = 0x200 ∧ (∀ k : Fin 16, t.stack.get k = 0) ∧
    t.sp = 0 ∧ t.dt = 0 ∧ t.st = 0 ∧ (∀ k, k < 2048 → Frame.cell t.fb k = false) ∧ (∀ k, t.keyHeld k = false) ∧
    t.drawPending = false ∧ t.beepPending = false ∧ t.fault = none ∧ t.used = false

/-- An admitted load copies the font to `0x000` and the program to `0x200`, sets `USED`, and changes nothing else (R252);
`font` is any table of 80 bytes (the spec's decision D15, log entry 6), and `USED` is its decision D14, log entry 5. -/
def Obligations.LoadInstallsFontAndProgram : Prop :=
  ∀ (font program : List Byte) (s : State), Memory.wf s.mem = true → s.used = false → font.length = 80 →
    program.length ≤ 3584 → ∃ t, hostStep font (.load program) s = .next (t, .done) ∧
      (∀ a, t.byteAt a = if a < 80 then font.getD a 0 else
        if 0x200 ≤ a ∧ a < 0x200 + program.length then program.getD (a - 0x200) 0 else s.byteAt a) ∧
      t.used = true ∧ t = { s with mem := t.mem, used := true } ∧ Memory.wf t.mem = true

/-- A load of more than 3584 bytes reports `RomTooLarge` and changes no state; a load onto a used machine is not admitted
(R253, the spec's decision D14; which of the two wins when both hold is the model's choice, log entry 5). -/
def Obligations.LoadRefusals : Prop :=
  ∀ (font program : List Byte) (s : State),
    (s.used = false → 3584 < program.length → hostStep font (.load program) s = .next (s, .romTooLarge)) ∧
    (s.used = true → hostStep font (.load program) s = .refused .loadOnUsedMachine)

/-- Key latch and pending flags: the host sets any subset of `KEY` or one key and reads it back; it reads the two flags and
may clear them, nothing else changes (R257, R258, R259). -/
def Obligations.HostLatchOperations : Prop :=
  ∀ (font : List Byte) (s : State),
    (∀ keys : BitVec 16, ∃ t, hostStep font (.writeKeys keys) s = .next (t, .done) ∧
      (∀ k, t.keyHeld k = keys.getLsbD k.val) ∧ t = { s with keys := t.keys }) ∧
    (∀ (k : Fin 16) (held : Bool), ∃ t, hostStep font (.setKey k held) s = .next (t, .done) ∧
      (∀ j, t.keyHeld j = if j = k then held else s.keyHeld j) ∧ t = { s with keys := t.keys }) ∧
    hostStep font .readKeys s = .next (s, .keys s.keys) ∧
    hostStep font (.readDraw false) s = .next (s, .flag s.drawPending) ∧
    hostStep font (.readDraw true) s = .next ({ s with drawPending := false }, .flag s.drawPending) ∧
    hostStep font (.readBeep false) s = .next (s, .flag s.beepPending) ∧
    hostStep font (.readBeep true) s = .next ({ s with beepPending := false }, .flag s.beepPending)

/-- The framebuffer view: 2048 values of 0 or 1, value `row*64 + col` being that cell; reading changes nothing (R260;
that it may be read at any time is the spec's decision D24, log entry 22). -/
def Obligations.FramebufferView : Prop :=
  ∀ (font : List Byte) (s : State), ∃ cells, hostStep font .readFrame s = .next (s, .frame cells) ∧
    cells.length = 2048 ∧ ∀ row col, row < 32 → col < 64 →
      cells[row * 64 + col]? = some (if Frame.cell s.fb (row * 64 + col) = true then 1 else 0)

/-- After reset and an admitted load the machine runs, meets the invariant, and its next fetch is from `0x200`: the
program's first two bytes, high byte first (R321, R322). -/
def Obligations.ExecutionStartsAtTheProgram : Prop :=
  ∀ (font program : List Byte) (s : State), font.length = 80 → 2 ≤ program.length → program.length ≤ 3584 →
    ∃ t, hostStep font (.load program) (hostReset s) = .next (t, .done) ∧ Running t ∧ StateInv t ∧ t.pc = 0x200 ∧
      fetchWord t = .ok (BitVec.ofNat 16 ((program.getD 0 0).toNat * 256 + (program.getD 1 0).toNat))
end

