-- ==== Sys2Proof/Laws/Decode.lean ====
section
/-! SUPPORT. The fields of a word and the formats as place-value arithmetic, so that omega settles encodings: the fields of
an encoded word are the operands it was encoded from, and a word is made of its fields. -/

namespace Sys2Proof

/-! ## Place values -/

theorem append_toNat {a b : Nat} (x : BitVec a) (y : BitVec b) : (x ++ y).toNat = x.toNat * 2 ^ b + y.toNat := by
  rw [BitVec.toNat_append, ← Nat.shiftLeft_add_eq_or_of_lt y.isLt, Nat.shiftLeft_eq]

theorem field_toNat (op : Word) (lo len : Nat) :
    (op.extractLsb' lo len).toNat = op.toNat / 2 ^ lo % 2 ^ len := by
  rw [BitVec.extractLsb'_toNat, Nat.shiftRight_eq_div_pow]

theorem nibble_toNat (r : Fin 16) : (nibble r).toNat = r.val := by
  have := r.isLt
  simp [nibble]

theorem famOf_eq (op : Word) : famOf op = op.toNat / 4096 := by
  have := op.isLt
  rw [famOf, field_toNat]
  omega

theorem xOf_val (op : Word) : (xOf op).val = op.toNat / 256 % 16 := field_toNat op 8 4

theorem yOf_val (op : Word) : (yOf op).val = op.toNat / 16 % 16 := field_toNat op 4 4

theorem nOf_val (op : Word) : (nOf op).val = op.toNat % 16 := by
  have : (nOf op).val = _ := field_toNat op 0 4
  omega

theorem kkOf_toNat (op : Word) : (kkOf op).toNat = op.toNat % 256 := by
  rw [kkOf, field_toNat]
  simp

theorem nnnOf_toNat (op : Word) : (nnnOf op).toNat = op.toNat % 4096 := by
  rw [nnnOf, field_toNat]
  simp

theorem encodeA_toNat (fam : BitVec 4) (nnn : Addr) : (encodeA fam nnn).toNat = fam.toNat * 4096 + nnn.toNat :=
  append_toNat fam nnn

theorem encodeRI_toNat (fam : BitVec 4) (x : Reg) (kk : Byte) :
    (encodeRI fam x kk).toNat = fam.toNat * 4096 + x.val * 256 + kk.toNat := by
  have h := encodeA_toNat fam (nibble x ++ kk)
  have h' := append_toNat (nibble x) kk
  have hx := nibble_toNat x
  rw [encodeA] at h
  rw [encodeRI, h]
  omega

theorem encodeRRN_toNat (fam : BitVec 4) (x y n : Fin 16) :
    (encodeRRN fam x y n).toNat = fam.toNat * 4096 + x.val * 256 + y.val * 16 + n.val := by
  have h := encodeRI_toNat fam x (nibble y ++ nibble n)
  have h' := append_toNat (nibble y) (nibble n)
  have hy := nibble_toNat y
  have hn := nibble_toNat n
  rw [encodeRI] at h
  rw [encodeRRN, h]
  omega

/-! ## The fields of an encoded word -/

@[simp] theorem famOf_encodeA (fam : BitVec 4) (nnn : Addr) : famOf (encodeA fam nnn) = fam.toNat := by
  have := nnn.isLt
  rw [famOf_eq, encodeA_toNat]
  omega

@[simp] theorem nnnOf_encodeA (fam : BitVec 4) (nnn : Addr) : nnnOf (encodeA fam nnn) = nnn := by
  have := nnn.isLt
  apply BitVec.eq_of_toNat_eq
  rw [nnnOf_toNat, encodeA_toNat]
  omega

@[simp] theorem famOf_encodeRI (fam : BitVec 4) (x : Reg) (kk : Byte) : famOf (encodeRI fam x kk) = fam.toNat := by
  have := x.isLt
  have := kk.isLt
  rw [famOf_eq, encodeRI_toNat]
  omega

@[simp] theorem xOf_encodeRI (fam : BitVec 4) (x : Reg) (kk : Byte) : xOf (encodeRI fam x kk) = x := by
  have := x.isLt
  have := kk.isLt
  apply Fin.ext
  rw [xOf_val, encodeRI_toNat]
  omega

@[simp] theorem kkOf_encodeRI (fam : BitVec 4) (x : Reg) (kk : Byte) : kkOf (encodeRI fam x kk) = kk := by
  have := kk.isLt
  apply BitVec.eq_of_toNat_eq
  rw [kkOf_toNat, encodeRI_toNat]
  omega

@[simp] theorem famOf_encodeRRN (fam : BitVec 4) (x y n : Fin 16) : famOf (encodeRRN fam x y n) = fam.toNat := by
  have := x.isLt
  have := y.isLt
  have := n.isLt
  rw [famOf_eq, encodeRRN_toNat]
  omega

@[simp] theorem xOf_encodeRRN (fam : BitVec 4) (x y n : Fin 16) : xOf (encodeRRN fam x y n) = x := by
  have := x.isLt
  have := y.isLt
  have := n.isLt
  apply Fin.ext
  rw [xOf_val, encodeRRN_toNat]
  omega

@[simp] theorem yOf_encodeRRN (fam : BitVec 4) (x y n : Fin 16) : yOf (encodeRRN fam x y n) = y := by
  have := y.isLt
  have := n.isLt
  apply Fin.ext
  rw [yOf_val, encodeRRN_toNat]
  omega

@[simp] theorem nOf_encodeRRN (fam : BitVec 4) (x y n : Fin 16) : nOf (encodeRRN fam x y n) = n := by
  have := n.isLt
  apply Fin.ext
  rw [nOf_val, encodeRRN_toNat]
  omega

/-! ## A word from its fields -/

/-- A word is its family and its address field (format `A`). -/
theorem encodeA_fields {op : Word} {fam : BitVec 4} (h : famOf op = fam.toNat) : encodeA fam (nnnOf op) = op := by
  apply BitVec.eq_of_toNat_eq
  rw [encodeA_toNat, nnnOf_toNat, ← h, famOf_eq]
  omega

/-- A word is its family, its `x` and its `kk` (format `RI`). -/
theorem encodeRI_fields {op : Word} {fam : BitVec 4} (h : famOf op = fam.toNat) :
    encodeRI fam (xOf op) (kkOf op) = op := by
  apply BitVec.eq_of_toNat_eq
  rw [encodeRI_toNat, kkOf_toNat, xOf_val, ← h, famOf_eq]
  omega

/-- A word is its family, its `x`, its `y` and its low nibble (format `RRN`). -/
theorem encodeRRN_fields {op : Word} {fam : BitVec 4} (h : famOf op = fam.toNat) :
    encodeRRN fam (xOf op) (yOf op) (nOf op) = op := by
  apply BitVec.eq_of_toNat_eq
  rw [encodeRRN_toNat, xOf_val, yOf_val, nOf_val, ← h, famOf_eq]
  omega

/-! ## Words and bytes -/

/-- The word of two bytes as a number: the first byte is the high one (R65). -/
theorem wordOfBytes_toNat (hi lo : Byte) : (wordOfBytes hi lo).toNat = hi.toNat * 256 + lo.toNat := append_toNat hi lo

theorem wordOfBytes_eq (hi lo : Byte) : wordOfBytes hi lo = BitVec.ofNat 16 (hi.toNat * 256 + lo.toNat) := by
  apply BitVec.eq_of_toNat_eq
  have := hi.isLt
  have := lo.isLt
  rw [wordOfBytes_toNat, BitVec.toNat_ofNat]
  omega

theorem highByte_toNat (w : Word) : (highByte w).toNat = w.toNat / 256 := by
  have := w.isLt
  have : (highByte w).toNat = _ := field_toNat w 8 8
  omega

theorem lowByte_toNat (w : Word) : (lowByte w).toNat = w.toNat % 256 := by
  rw [lowByte, field_toNat]
  simp

/-- The bytes of a word, high first, make the word again. -/
@[simp] theorem wordOfBytes_bytes (w : Word) : wordOfBytes (highByte w) (lowByte w) = w := by
  apply BitVec.eq_of_toNat_eq
  rw [wordOfBytes_toNat, highByte_toNat, lowByte_toNat]
  omega

@[simp] theorem highByte_wordOfBytes (hi lo : Byte) : highByte (wordOfBytes hi lo) = hi := by
  have := lo.isLt
  apply BitVec.eq_of_toNat_eq
  rw [highByte_toNat, wordOfBytes_toNat]
  omega

@[simp] theorem lowByte_wordOfBytes (hi lo : Byte) : lowByte (wordOfBytes hi lo) = lo := by
  have := lo.isLt
  apply BitVec.eq_of_toNat_eq
  rw [lowByte_toNat, wordOfBytes_toNat]
  omega

/-! ## The masks of the opcode table as fields (R96) -/

/-- Mask `F000` keeps the family. -/
theorem mask_family (op : Word) : (op &&& 0xF000#16).toNat = op.toNat / 4096 * 4096 := by
  have h : op &&& 0xF000#16 = (op >>> 12) <<< 12 := by
    apply BitVec.eq_of_getLsbD_eq
    intro i hi
    have : ∀ i : Fin 16, (0xF000#16).getLsbD i.val = decide (12 ≤ i.val) := by decide
    rw [BitVec.getLsbD_and, this ⟨i, hi⟩]
    by_cases hb : 12 ≤ i
    · simp [hb, hi, show ¬ i < 12 by omega]
    · simp [hb, show i < 12 by omega]
  have := op.isLt
  rw [h, BitVec.toNat_shiftLeft, BitVec.toNat_ushiftRight, Nat.shiftLeft_eq, Nat.shiftRight_eq_div_pow]
  omega

/-- Mask `F00F` keeps the family and the low nibble. -/
theorem mask_family_nibble (op : Word) : (op &&& 0xF00F#16).toNat = op.toNat / 4096 * 4096 + op.toNat % 16 := by
  have h : op &&& 0xF00F#16 = (op &&& 0xF000#16) + (op &&& 0x000F#16) := by
    rw [BitVec.add_eq_or_of_and_eq_zero]
    · rw [← BitVec.and_or_distrib_left]
      rfl
    · rw [show op &&& 0xF000#16 &&& (op &&& 0x000F#16) = op &&& op &&& (0xF000#16 &&& 0x000F#16) by ac_rfl]
      simp
  have h2 : (op &&& 0x000F#16).toNat = op.toNat % 16 := by
    rw [BitVec.toNat_and]
    exact Nat.and_two_pow_sub_one_eq_mod op.toNat 4
  have := op.isLt
  rw [h, BitVec.toNat_add, mask_family, h2]
  omega

/-- Mask `F0FF` keeps the family and the low byte. -/
theorem mask_family_byte (op : Word) : (op &&& 0xF0FF#16).toNat = op.toNat / 4096 * 4096 + op.toNat % 256 := by
  have h : op &&& 0xF0FF#16 = (op &&& 0xF000#16) + (op &&& 0x00FF#16) := by
    rw [BitVec.add_eq_or_of_and_eq_zero]
    · rw [← BitVec.and_or_distrib_left]
      rfl
    · rw [show op &&& 0xF000#16 &&& (op &&& 0x00FF#16) = op &&& op &&& (0xF000#16 &&& 0x00FF#16) by ac_rfl]
      simp
  have h2 : (op &&& 0x00FF#16).toNat = op.toNat % 256 := by
    rw [BitVec.toNat_and]
    exact Nat.and_two_pow_sub_one_eq_mod op.toNat 8
  have := op.isLt
  rw [h, BitVec.toNat_add, mask_family, h2]
  omega

/-- Mask `FFFF` keeps everything. -/
theorem mask_all (op : Word) : (op &&& 0xFFFF#16).toNat = op.toNat := by
  have := op.isLt
  rw [BitVec.toNat_and]
  exact (Nat.and_two_pow_sub_one_eq_mod op.toNat 16).trans (by omega)

end Sys2Proof
end

