-- ==== Sys2Proof/Laws/Memory.lean ====
section
/-! SUPPORT. The laws of byte storage: a read after a write, and that every operation keeps the canonical form. -/

namespace Sys2Proof.Machine

/-- A canonical list above `lo` lists no address below `lo`, so such an address reads 0. -/
theorem Memory.read_below {lo : Nat} {m : List Host.Cell} (h : Memory.wfFrom lo m = true) {a : Nat} (ha : a < lo) :
    Memory.read m a = 0#8 := by
  induction m generalizing lo with
  | nil => rfl
  | cons c m ih =>
    obtain ⟨k, v⟩ := c
    simp only [Memory.wfFrom, Bool.and_eq_true, decide_eq_true_eq] at h
    have hk : k ≠ a := by omega
    simpa [Memory.read, hk] using ih h.2 (by omega)

/-- The canonical form above a bound is the canonical form above every lower bound. -/
theorem Memory.wfFrom_mono {lo lo' : Nat} {m : List Host.Cell} (h : Memory.wfFrom lo m = true) (hl : lo' ≤ lo) :
    Memory.wfFrom lo' m = true := by
  cases m with
  | nil => rfl
  | cons c m =>
    obtain ⟨k, v⟩ := c
    simp only [Memory.wfFrom, Bool.and_eq_true, decide_eq_true_eq] at h ⊢
    exact ⟨⟨⟨by omega, h.1.1.2⟩, h.1.2⟩, h.2⟩

/-- A write leaves every other address alone, in any list. -/
theorem Memory.read_write_other (m : List Host.Cell) {a a' : Nat} (b : Byte) (h : a' ≠ a) :
    Memory.read (Memory.write m a b) a' = Memory.read m a' := by
  induction m with
  | nil => by_cases hb : b = 0#8 <;> simp [Memory.write, Memory.read, hb, h.symm]
  | cons c m ih =>
    obtain ⟨k, v⟩ := c
    unfold Memory.write
    split
    · by_cases hb : b = 0#8 <;> simp [Memory.read, hb, h.symm]
    · split
      · subst_vars
        by_cases hb : b = 0#8 <;> simp [Memory.read, hb, h.symm]
      · simp [Memory.read, ih]

/-- A read at the written address gives the written byte. -/
theorem Memory.read_write_same {lo : Nat} {m : List Host.Cell} (hw : Memory.wfFrom lo m = true) (a : Nat) (b : Byte) :
    Memory.read (Memory.write m a b) a = b := by
  induction m generalizing lo with
  | nil => by_cases hb : b = 0#8 <;> simp [Memory.write, Memory.read, hb]
  | cons c m ih =>
    obtain ⟨k, v⟩ := c
    have hw' := hw
    simp only [Memory.wfFrom, Bool.and_eq_true, decide_eq_true_eq] at hw'
    unfold Memory.write
    split
    · have hka : k ≠ a := by omega
      by_cases hb : b = 0#8
      · simpa [hb, Memory.read, hka] using Memory.read_below hw'.2 (by omega)
      · simp [hb, Memory.read]
    · split
      · subst_vars
        by_cases hb : b = 0#8
        · simpa [hb] using Memory.read_below hw'.2 (by omega)
        · simp [hb, Memory.read]
      · have hka : k ≠ a := by omega
        simpa [Memory.read, hka] using ih hw'.2

/-- A write inside the address space keeps the canonical form. -/
theorem Memory.wfFrom_write {lo : Nat} {m : List Host.Cell} (hw : Memory.wfFrom lo m = true) {a : Nat} (b : Byte)
    (hlo : lo ≤ a) (ha : a < 4096) : Memory.wfFrom lo (Memory.write m a b) = true := by
  induction m generalizing lo with
  | nil => by_cases hb : b = 0#8 <;> simp [Memory.write, Memory.wfFrom, hb, hlo, ha]
  | cons c m ih =>
    obtain ⟨k, v⟩ := c
    have hw' := hw
    simp only [Memory.wfFrom, Bool.and_eq_true, decide_eq_true_eq] at hw'
    unfold Memory.write
    split
    · by_cases hb : b = 0#8
      · simpa [hb] using hw
      · have h1 : a + 1 ≤ k := by omega
        simp [hb, Memory.wfFrom, hlo, ha, h1, hw'.1.1.2, hw'.2]
        simpa using hw'.1.2
    · split
      · subst_vars
        by_cases hb : b = 0#8
        · simpa [hb] using Memory.wfFrom_mono hw'.2 (by omega)
        · simp [hb, Memory.wfFrom, hlo, ha, hw'.2]
      · simp [Memory.wfFrom, hw'.1.1.1, hw'.1.1.2, ih hw'.2 (by omega)]
        simpa using hw'.1.2

theorem Memory.wf_write {m : List Host.Cell} (hw : Memory.wf m = true) {a : Nat} (b : Byte) (ha : a < 4096) :
    Memory.wf (Memory.write m a b) = true := Memory.wfFrom_write hw b (Nat.zero_le a) ha

/-- Consecutive writes inside the address space keep the canonical form. -/
theorem Memory.wf_writeBytes {m : List Host.Cell} (hw : Memory.wf m = true) {base : Nat} {bs : List Byte}
    (h : base + bs.length ≤ 4096) : Memory.wf (Memory.writeBytes m base bs) = true := by
  induction bs generalizing m base with
  | nil => exact hw
  | cons b bs ih =>
    simp only [List.length_cons] at h
    exact ih (Memory.wf_write hw b (by omega)) (by omega)

/-- Consecutive writes leave every address outside their range alone, in any list. -/
theorem Memory.read_writeBytes_outside (m : List Host.Cell) {base : Nat} {bs : List Byte} {a : Nat}
    (h : a < base ∨ base + bs.length ≤ a) : Memory.read (Memory.writeBytes m base bs) a = Memory.read m a := by
  induction bs generalizing m base with
  | nil => rfl
  | cons b bs ih =>
    simp only [List.length_cons] at h
    rw [Memory.writeBytes, ih _ (by omega), Memory.read_write_other _ _ (by omega)]

/-- Byte `j` of consecutive writes is read back at `base + j`. -/
theorem Memory.read_writeBytes_inside {m : List Host.Cell} (hw : Memory.wf m = true) {base : Nat} {bs : List Byte}
    (hr : base + bs.length ≤ 4096) {j : Nat} (hj : j < bs.length) :
    Memory.read (Memory.writeBytes m base bs) (base + j) = bs[j] := by
  induction bs generalizing m base j with
  | nil => simp at hj
  | cons b bs ih =>
    simp only [List.length_cons] at hr hj
    cases j with
    | zero =>
      rw [Nat.add_zero, Memory.writeBytes, Memory.read_writeBytes_outside _ (Or.inl (by omega))]
      exact Memory.read_write_same hw base b
    | succ j =>
      have h := ih (m := Memory.write m base b) (Memory.wf_write hw b (by omega)) (base := base + 1) (j := j)
        (by omega) (by omega)
      rw [Memory.writeBytes, show base + (j + 1) = base + 1 + j by omega, h]
      rfl

/-- The bytes a read of consecutive addresses gives. -/
@[simp] theorem Memory.length_readBytes (m : List Host.Cell) (base len : Nat) :
    (Memory.readBytes m base len).length = len := by simp [Memory.readBytes]

@[simp] theorem Memory.getElem_readBytes (m : List Host.Cell) (base len : Nat) {j : Nat}
    (h : j < (Memory.readBytes m base len).length) :
    (Memory.readBytes m base len)[j] = Memory.read m (base + j) := by simp [Memory.readBytes]

end Sys2Proof.Machine
end

