-- ==== Sys2Proof/Laws/State.lean ====
section
/-! SUPPORT. One lemma per field per update of State, true by rfl, so that no proof unfolds a record update. -/

namespace Sys2Proof.Machine

/-! ### `setV` -/

@[simp] theorem State.setV_mem (s : State) (r : Reg) (b : Byte) : (s.setV r b).mem = s.mem := rfl
@[simp] theorem State.setV_v (s : State) (r : Reg) (b : Byte) : (s.setV r b).v = s.v.set r.val b r.isLt := rfl
@[simp] theorem State.setV_i (s : State) (r : Reg) (b : Byte) : (s.setV r b).i = s.i := rfl
@[simp] theorem State.setV_pc (s : State) (r : Reg) (b : Byte) : (s.setV r b).pc = s.pc := rfl
@[simp] theorem State.setV_stack (s : State) (r : Reg) (b : Byte) : (s.setV r b).stack = s.stack := rfl
@[simp] theorem State.setV_sp (s : State) (r : Reg) (b : Byte) : (s.setV r b).sp = s.sp := rfl
@[simp] theorem State.setV_dt (s : State) (r : Reg) (b : Byte) : (s.setV r b).dt = s.dt := rfl
@[simp] theorem State.setV_st (s : State) (r : Reg) (b : Byte) : (s.setV r b).st = s.st := rfl
@[simp] theorem State.setV_fb (s : State) (r : Reg) (b : Byte) : (s.setV r b).fb = s.fb := rfl
@[simp] theorem State.setV_keys (s : State) (r : Reg) (b : Byte) : (s.setV r b).keys = s.keys := rfl
@[simp] theorem State.setV_drawPending (s : State) (r : Reg) (b : Byte) : (s.setV r b).drawPending = s.drawPending := rfl
@[simp] theorem State.setV_beepPending (s : State) (r : Reg) (b : Byte) : (s.setV r b).beepPending = s.beepPending := rfl
@[simp] theorem State.setV_fault (s : State) (r : Reg) (b : Byte) : (s.setV r b).fault = s.fault := rfl
@[simp] theorem State.setV_used (s : State) (r : Reg) (b : Byte) : (s.setV r b).used = s.used := rfl
@[simp] theorem State.setV_rndSupply (s : State) (r : Reg) (b : Byte) : (s.setV r b).rndSupply = s.rndSupply := rfl
@[simp] theorem State.setV_rndDraws (s : State) (r : Reg) (b : Byte) : (s.setV r b).rndDraws = s.rndDraws := rfl
@[simp] theorem State.setV_byteAt (s : State) (r : Reg) (b : Byte) (k : Nat) : (s.setV r b).byteAt k = s.byteAt k := rfl
@[simp] theorem State.setV_base (s : State) (r : Reg) (b : Byte) : (s.setV r b).base = s.base := rfl
@[simp] theorem State.setV_keyHeld (s : State) (r : Reg) (b : Byte) (k : Fin 16) : (s.setV r b).keyHeld k = s.keyHeld k := rfl

/-! ### `setI` -/

@[simp] theorem State.setI_mem (s : State) (a : Addr) : (s.setI a).mem = s.mem := rfl
@[simp] theorem State.setI_v (s : State) (a : Addr) : (s.setI a).v = s.v := rfl
@[simp] theorem State.setI_i (s : State) (a : Addr) : (s.setI a).i = a := rfl
@[simp] theorem State.setI_pc (s : State) (a : Addr) : (s.setI a).pc = s.pc := rfl
@[simp] theorem State.setI_stack (s : State) (a : Addr) : (s.setI a).stack = s.stack := rfl
@[simp] theorem State.setI_sp (s : State) (a : Addr) : (s.setI a).sp = s.sp := rfl
@[simp] theorem State.setI_dt (s : State) (a : Addr) : (s.setI a).dt = s.dt := rfl
@[simp] theorem State.setI_st (s : State) (a : Addr) : (s.setI a).st = s.st := rfl
@[simp] theorem State.setI_fb (s : State) (a : Addr) : (s.setI a).fb = s.fb := rfl
@[simp] theorem State.setI_keys (s : State) (a : Addr) : (s.setI a).keys = s.keys := rfl
@[simp] theorem State.setI_drawPending (s : State) (a : Addr) : (s.setI a).drawPending = s.drawPending := rfl
@[simp] theorem State.setI_beepPending (s : State) (a : Addr) : (s.setI a).beepPending = s.beepPending := rfl
@[simp] theorem State.setI_fault (s : State) (a : Addr) : (s.setI a).fault = s.fault := rfl
@[simp] theorem State.setI_used (s : State) (a : Addr) : (s.setI a).used = s.used := rfl
@[simp] theorem State.setI_rndSupply (s : State) (a : Addr) : (s.setI a).rndSupply = s.rndSupply := rfl
@[simp] theorem State.setI_rndDraws (s : State) (a : Addr) : (s.setI a).rndDraws = s.rndDraws := rfl
@[simp] theorem State.setI_getV (s : State) (a : Addr) (k : Reg) : (s.setI a).getV k = s.getV k := rfl
@[simp] theorem State.setI_byteAt (s : State) (a : Addr) (k : Nat) : (s.setI a).byteAt k = s.byteAt k := rfl
@[simp] theorem State.setI_keyHeld (s : State) (a : Addr) (k : Fin 16) : (s.setI a).keyHeld k = s.keyHeld k := rfl

/-! ### `setPc` -/

@[simp] theorem State.setPc_mem (s : State) (w : Word) : (s.setPc w).mem = s.mem := rfl
@[simp] theorem State.setPc_v (s : State) (w : Word) : (s.setPc w).v = s.v := rfl
@[simp] theorem State.setPc_i (s : State) (w : Word) : (s.setPc w).i = s.i := rfl
@[simp] theorem State.setPc_pc (s : State) (w : Word) : (s.setPc w).pc = w := rfl
@[simp] theorem State.setPc_stack (s : State) (w : Word) : (s.setPc w).stack = s.stack := rfl
@[simp] theorem State.setPc_sp (s : State) (w : Word) : (s.setPc w).sp = s.sp := rfl
@[simp] theorem State.setPc_dt (s : State) (w : Word) : (s.setPc w).dt = s.dt := rfl
@[simp] theorem State.setPc_st (s : State) (w : Word) : (s.setPc w).st = s.st := rfl
@[simp] theorem State.setPc_fb (s : State) (w : Word) : (s.setPc w).fb = s.fb := rfl
@[simp] theorem State.setPc_keys (s : State) (w : Word) : (s.setPc w).keys = s.keys := rfl
@[simp] theorem State.setPc_drawPending (s : State) (w : Word) : (s.setPc w).drawPending = s.drawPending := rfl
@[simp] theorem State.setPc_beepPending (s : State) (w : Word) : (s.setPc w).beepPending = s.beepPending := rfl
@[simp] theorem State.setPc_fault (s : State) (w : Word) : (s.setPc w).fault = s.fault := rfl
@[simp] theorem State.setPc_used (s : State) (w : Word) : (s.setPc w).used = s.used := rfl
@[simp] theorem State.setPc_rndSupply (s : State) (w : Word) : (s.setPc w).rndSupply = s.rndSupply := rfl
@[simp] theorem State.setPc_rndDraws (s : State) (w : Word) : (s.setPc w).rndDraws = s.rndDraws := rfl
@[simp] theorem State.setPc_getV (s : State) (w : Word) (k : Reg) : (s.setPc w).getV k = s.getV k := rfl
@[simp] theorem State.setPc_byteAt (s : State) (w : Word) (k : Nat) : (s.setPc w).byteAt k = s.byteAt k := rfl
@[simp] theorem State.setPc_base (s : State) (w : Word) : (s.setPc w).base = s.base := rfl
@[simp] theorem State.setPc_keyHeld (s : State) (w : Word) (k : Fin 16) : (s.setPc w).keyHeld k = s.keyHeld k := rfl

/-! ### `setDt` -/

@[simp] theorem State.setDt_mem (s : State) (b : Byte) : (s.setDt b).mem = s.mem := rfl
@[simp] theorem State.setDt_v (s : State) (b : Byte) : (s.setDt b).v = s.v := rfl
@[simp] theorem State.setDt_i (s : State) (b : Byte) : (s.setDt b).i = s.i := rfl
@[simp] theorem State.setDt_pc (s : State) (b : Byte) : (s.setDt b).pc = s.pc := rfl
@[simp] theorem State.setDt_stack (s : State) (b : Byte) : (s.setDt b).stack = s.stack := rfl
@[simp] theorem State.setDt_sp (s : State) (b : Byte) : (s.setDt b).sp = s.sp := rfl
@[simp] theorem State.setDt_dt (s : State) (b : Byte) : (s.setDt b).dt = b := rfl
@[simp] theorem State.setDt_st (s : State) (b : Byte) : (s.setDt b).st = s.st := rfl
@[simp] theorem State.setDt_fb (s : State) (b : Byte) : (s.setDt b).fb = s.fb := rfl
@[simp] theorem State.setDt_keys (s : State) (b : Byte) : (s.setDt b).keys = s.keys := rfl
@[simp] theorem State.setDt_drawPending (s : State) (b : Byte) : (s.setDt b).drawPending = s.drawPending := rfl
@[simp] theorem State.setDt_beepPending (s : State) (b : Byte) : (s.setDt b).beepPending = s.beepPending := rfl
@[simp] theorem State.setDt_fault (s : State) (b : Byte) : (s.setDt b).fault = s.fault := rfl
@[simp] theorem State.setDt_used (s : State) (b : Byte) : (s.setDt b).used = s.used := rfl
@[simp] theorem State.setDt_rndSupply (s : State) (b : Byte) : (s.setDt b).rndSupply = s.rndSupply := rfl
@[simp] theorem State.setDt_rndDraws (s : State) (b : Byte) : (s.setDt b).rndDraws = s.rndDraws := rfl
@[simp] theorem State.setDt_getV (s : State) (b : Byte) (k : Reg) : (s.setDt b).getV k = s.getV k := rfl
@[simp] theorem State.setDt_byteAt (s : State) (b : Byte) (k : Nat) : (s.setDt b).byteAt k = s.byteAt k := rfl
@[simp] theorem State.setDt_base (s : State) (b : Byte) : (s.setDt b).base = s.base := rfl
@[simp] theorem State.setDt_keyHeld (s : State) (b : Byte) (k : Fin 16) : (s.setDt b).keyHeld k = s.keyHeld k := rfl

/-! ### `setSt` -/

@[simp] theorem State.setSt_mem (s : State) (b : Byte) : (s.setSt b).mem = s.mem := rfl
@[simp] theorem State.setSt_v (s : State) (b : Byte) : (s.setSt b).v = s.v := rfl
@[simp] theorem State.setSt_i (s : State) (b : Byte) : (s.setSt b).i = s.i := rfl
@[simp] theorem State.setSt_pc (s : State) (b : Byte) : (s.setSt b).pc = s.pc := rfl
@[simp] theorem State.setSt_stack (s : State) (b : Byte) : (s.setSt b).stack = s.stack := rfl
@[simp] theorem State.setSt_sp (s : State) (b : Byte) : (s.setSt b).sp = s.sp := rfl
@[simp] theorem State.setSt_dt (s : State) (b : Byte) : (s.setSt b).dt = s.dt := rfl
@[simp] theorem State.setSt_st (s : State) (b : Byte) : (s.setSt b).st = b := rfl
@[simp] theorem State.setSt_fb (s : State) (b : Byte) : (s.setSt b).fb = s.fb := rfl
@[simp] theorem State.setSt_keys (s : State) (b : Byte) : (s.setSt b).keys = s.keys := rfl
@[simp] theorem State.setSt_drawPending (s : State) (b : Byte) : (s.setSt b).drawPending = s.drawPending := rfl
@[simp] theorem State.setSt_beepPending (s : State) (b : Byte) : (s.setSt b).beepPending = s.beepPending := rfl
@[simp] theorem State.setSt_fault (s : State) (b : Byte) : (s.setSt b).fault = s.fault := rfl
@[simp] theorem State.setSt_used (s : State) (b : Byte) : (s.setSt b).used = s.used := rfl
@[simp] theorem State.setSt_rndSupply (s : State) (b : Byte) : (s.setSt b).rndSupply = s.rndSupply := rfl
@[simp] theorem State.setSt_rndDraws (s : State) (b : Byte) : (s.setSt b).rndDraws = s.rndDraws := rfl
@[simp] theorem State.setSt_getV (s : State) (b : Byte) (k : Reg) : (s.setSt b).getV k = s.getV k := rfl
@[simp] theorem State.setSt_byteAt (s : State) (b : Byte) (k : Nat) : (s.setSt b).byteAt k = s.byteAt k := rfl
@[simp] theorem State.setSt_base (s : State) (b : Byte) : (s.setSt b).base = s.base := rfl
@[simp] theorem State.setSt_keyHeld (s : State) (b : Byte) (k : Fin 16) : (s.setSt b).keyHeld k = s.keyHeld k := rfl

/-! ### `setFb` -/

@[simp] theorem State.setFb_mem (s : State) (f : FrameBuffer) : (s.setFb f).mem = s.mem := rfl
@[simp] theorem State.setFb_v (s : State) (f : FrameBuffer) : (s.setFb f).v = s.v := rfl
@[simp] theorem State.setFb_i (s : State) (f : FrameBuffer) : (s.setFb f).i = s.i := rfl
@[simp] theorem State.setFb_pc (s : State) (f : FrameBuffer) : (s.setFb f).pc = s.pc := rfl
@[simp] theorem State.setFb_stack (s : State) (f : FrameBuffer) : (s.setFb f).stack = s.stack := rfl
@[simp] theorem State.setFb_sp (s : State) (f : FrameBuffer) : (s.setFb f).sp = s.sp := rfl
@[simp] theorem State.setFb_dt (s : State) (f : FrameBuffer) : (s.setFb f).dt = s.dt := rfl
@[simp] theorem State.setFb_st (s : State) (f : FrameBuffer) : (s.setFb f).st = s.st := rfl
@[simp] theorem State.setFb_fb (s : State) (f : FrameBuffer) : (s.setFb f).fb = f := rfl
@[simp] theorem State.setFb_keys (s : State) (f : FrameBuffer) : (s.setFb f).keys = s.keys := rfl
@[simp] theorem State.setFb_drawPending (s : State) (f : FrameBuffer) : (s.setFb f).drawPending = s.drawPending := rfl
@[simp] theorem State.setFb_beepPending (s : State) (f : FrameBuffer) : (s.setFb f).beepPending = s.beepPending := rfl
@[simp] theorem State.setFb_fault (s : State) (f : FrameBuffer) : (s.setFb f).fault = s.fault := rfl
@[simp] theorem State.setFb_used (s : State) (f : FrameBuffer) : (s.setFb f).used = s.used := rfl
@[simp] theorem State.setFb_rndSupply (s : State) (f : FrameBuffer) : (s.setFb f).rndSupply = s.rndSupply := rfl
@[simp] theorem State.setFb_rndDraws (s : State) (f : FrameBuffer) : (s.setFb f).rndDraws = s.rndDraws := rfl
@[simp] theorem State.setFb_getV (s : State) (f : FrameBuffer) (k : Reg) : (s.setFb f).getV k = s.getV k := rfl
@[simp] theorem State.setFb_byteAt (s : State) (f : FrameBuffer) (k : Nat) : (s.setFb f).byteAt k = s.byteAt k := rfl
@[simp] theorem State.setFb_base (s : State) (f : FrameBuffer) : (s.setFb f).base = s.base := rfl
@[simp] theorem State.setFb_keyHeld (s : State) (f : FrameBuffer) (k : Fin 16) : (s.setFb f).keyHeld k = s.keyHeld k := rfl

/-! ### `requestDraw` -/

@[simp] theorem State.requestDraw_mem (s : State) : (s.requestDraw).mem = s.mem := rfl
@[simp] theorem State.requestDraw_v (s : State) : (s.requestDraw).v = s.v := rfl
@[simp] theorem State.requestDraw_i (s : State) : (s.requestDraw).i = s.i := rfl
@[simp] theorem State.requestDraw_pc (s : State) : (s.requestDraw).pc = s.pc := rfl
@[simp] theorem State.requestDraw_stack (s : State) : (s.requestDraw).stack = s.stack := rfl
@[simp] theorem State.requestDraw_sp (s : State) : (s.requestDraw).sp = s.sp := rfl
@[simp] theorem State.requestDraw_dt (s : State) : (s.requestDraw).dt = s.dt := rfl
@[simp] theorem State.requestDraw_st (s : State) : (s.requestDraw).st = s.st := rfl
@[simp] theorem State.requestDraw_fb (s : State) : (s.requestDraw).fb = s.fb := rfl
@[simp] theorem State.requestDraw_keys (s : State) : (s.requestDraw).keys = s.keys := rfl
@[simp] theorem State.requestDraw_drawPending (s : State) : (s.requestDraw).drawPending = true := rfl
@[simp] theorem State.requestDraw_beepPending (s : State) : (s.requestDraw).beepPending = s.beepPending := rfl
@[simp] theorem State.requestDraw_fault (s : State) : (s.requestDraw).fault = s.fault := rfl
@[simp] theorem State.requestDraw_used (s : State) : (s.requestDraw).used = s.used := rfl
@[simp] theorem State.requestDraw_rndSupply (s : State) : (s.requestDraw).rndSupply = s.rndSupply := rfl
@[simp] theorem State.requestDraw_rndDraws (s : State) : (s.requestDraw).rndDraws = s.rndDraws := rfl
@[simp] theorem State.requestDraw_getV (s : State) (k : Reg) : (s.requestDraw).getV k = s.getV k := rfl
@[simp] theorem State.requestDraw_byteAt (s : State) (k : Nat) : (s.requestDraw).byteAt k = s.byteAt k := rfl
@[simp] theorem State.requestDraw_base (s : State) : (s.requestDraw).base = s.base := rfl
@[simp] theorem State.requestDraw_keyHeld (s : State) (k : Fin 16) : (s.requestDraw).keyHeld k = s.keyHeld k := rfl

/-! ### `setMem` -/

@[simp] theorem State.setMem_mem (s : State) (m : List Host.Cell) : (s.setMem m).mem = m := rfl
@[simp] theorem State.setMem_v (s : State) (m : List Host.Cell) : (s.setMem m).v = s.v := rfl
@[simp] theorem State.setMem_i (s : State) (m : List Host.Cell) : (s.setMem m).i = s.i := rfl
@[simp] theorem State.setMem_pc (s : State) (m : List Host.Cell) : (s.setMem m).pc = s.pc := rfl
@[simp] theorem State.setMem_stack (s : State) (m : List Host.Cell) : (s.setMem m).stack = s.stack := rfl
@[simp] theorem State.setMem_sp (s : State) (m : List Host.Cell) : (s.setMem m).sp = s.sp := rfl
@[simp] theorem State.setMem_dt (s : State) (m : List Host.Cell) : (s.setMem m).dt = s.dt := rfl
@[simp] theorem State.setMem_st (s : State) (m : List Host.Cell) : (s.setMem m).st = s.st := rfl
@[simp] theorem State.setMem_fb (s : State) (m : List Host.Cell) : (s.setMem m).fb = s.fb := rfl
@[simp] theorem State.setMem_keys (s : State) (m : List Host.Cell) : (s.setMem m).keys = s.keys := rfl
@[simp] theorem State.setMem_drawPending (s : State) (m : List Host.Cell) : (s.setMem m).drawPending = s.drawPending := rfl
@[simp] theorem State.setMem_beepPending (s : State) (m : List Host.Cell) : (s.setMem m).beepPending = s.beepPending := rfl
@[simp] theorem State.setMem_fault (s : State) (m : List Host.Cell) : (s.setMem m).fault = s.fault := rfl
@[simp] theorem State.setMem_used (s : State) (m : List Host.Cell) : (s.setMem m).used = s.used := rfl
@[simp] theorem State.setMem_rndSupply (s : State) (m : List Host.Cell) : (s.setMem m).rndSupply = s.rndSupply := rfl
@[simp] theorem State.setMem_rndDraws (s : State) (m : List Host.Cell) : (s.setMem m).rndDraws = s.rndDraws := rfl
@[simp] theorem State.setMem_getV (s : State) (m : List Host.Cell) (k : Reg) : (s.setMem m).getV k = s.getV k := rfl
@[simp] theorem State.setMem_base (s : State) (m : List Host.Cell) : (s.setMem m).base = s.base := rfl
@[simp] theorem State.setMem_keyHeld (s : State) (m : List Host.Cell) (k : Fin 16) : (s.setMem m).keyHeld k = s.keyHeld k := rfl

/-! ### `setLowVs` -/

@[simp] theorem State.setLowVs_mem (s : State) (x : Reg) (bs : List Byte) : (s.setLowVs x bs).mem = s.mem := rfl
@[simp] theorem State.setLowVs_i (s : State) (x : Reg) (bs : List Byte) : (s.setLowVs x bs).i = s.i := rfl
@[simp] theorem State.setLowVs_pc (s : State) (x : Reg) (bs : List Byte) : (s.setLowVs x bs).pc = s.pc := rfl
@[simp] theorem State.setLowVs_stack (s : State) (x : Reg) (bs : List Byte) : (s.setLowVs x bs).stack = s.stack := rfl
@[simp] theorem State.setLowVs_sp (s : State) (x : Reg) (bs : List Byte) : (s.setLowVs x bs).sp = s.sp := rfl
@[simp] theorem State.setLowVs_dt (s : State) (x : Reg) (bs : List Byte) : (s.setLowVs x bs).dt = s.dt := rfl
@[simp] theorem State.setLowVs_st (s : State) (x : Reg) (bs : List Byte) : (s.setLowVs x bs).st = s.st := rfl
@[simp] theorem State.setLowVs_fb (s : State) (x : Reg) (bs : List Byte) : (s.setLowVs x bs).fb = s.fb := rfl
@[simp] theorem State.setLowVs_keys (s : State) (x : Reg) (bs : List Byte) : (s.setLowVs x bs).keys = s.keys := rfl
@[simp] theorem State.setLowVs_drawPending (s : State) (x : Reg) (bs : List Byte) : (s.setLowVs x bs).drawPending = s.drawPending := rfl
@[simp] theorem State.setLowVs_beepPending (s : State) (x : Reg) (bs : List Byte) : (s.setLowVs x bs).beepPending = s.beepPending := rfl
@[simp] theorem State.setLowVs_fault (s : State) (x : Reg) (bs : List Byte) : (s.setLowVs x bs).fault = s.fault := rfl
@[simp] theorem State.setLowVs_used (s : State) (x : Reg) (bs : List Byte) : (s.setLowVs x bs).used = s.used := rfl
@[simp] theorem State.setLowVs_rndSupply (s : State) (x : Reg) (bs : List Byte) : (s.setLowVs x bs).rndSupply = s.rndSupply := rfl
@[simp] theorem State.setLowVs_rndDraws (s : State) (x : Reg) (bs : List Byte) : (s.setLowVs x bs).rndDraws = s.rndDraws := rfl
@[simp] theorem State.setLowVs_byteAt (s : State) (x : Reg) (bs : List Byte) (k : Nat) : (s.setLowVs x bs).byteAt k = s.byteAt k := rfl
@[simp] theorem State.setLowVs_base (s : State) (x : Reg) (bs : List Byte) : (s.setLowVs x bs).base = s.base := rfl
@[simp] theorem State.setLowVs_keyHeld (s : State) (x : Reg) (bs : List Byte) (k : Fin 16) : (s.setLowVs x bs).keyHeld k = s.keyHeld k := rfl

/-! ### `raise` -/

@[simp] theorem State.raise_mem (s : State) (f : Fault) : (s.raise f).mem = s.mem := rfl
@[simp] theorem State.raise_v (s : State) (f : Fault) : (s.raise f).v = s.v := rfl
@[simp] theorem State.raise_i (s : State) (f : Fault) : (s.raise f).i = s.i := rfl
@[simp] theorem State.raise_pc (s : State) (f : Fault) : (s.raise f).pc = s.pc := rfl
@[simp] theorem State.raise_stack (s : State) (f : Fault) : (s.raise f).stack = s.stack := rfl
@[simp] theorem State.raise_sp (s : State) (f : Fault) : (s.raise f).sp = s.sp := rfl
@[simp] theorem State.raise_dt (s : State) (f : Fault) : (s.raise f).dt = s.dt := rfl
@[simp] theorem State.raise_st (s : State) (f : Fault) : (s.raise f).st = s.st := rfl
@[simp] theorem State.raise_fb (s : State) (f : Fault) : (s.raise f).fb = s.fb := rfl
@[simp] theorem State.raise_keys (s : State) (f : Fault) : (s.raise f).keys = s.keys := rfl
@[simp] theorem State.raise_drawPending (s : State) (f : Fault) : (s.raise f).drawPending = s.drawPending := rfl
@[simp] theorem State.raise_beepPending (s : State) (f : Fault) : (s.raise f).beepPending = s.beepPending := rfl
@[simp] theorem State.raise_fault (s : State) (f : Fault) : (s.raise f).fault = some f := rfl
@[simp] theorem State.raise_used (s : State) (f : Fault) : (s.raise f).used = s.used := rfl
@[simp] theorem State.raise_rndSupply (s : State) (f : Fault) : (s.raise f).rndSupply = s.rndSupply := rfl
@[simp] theorem State.raise_rndDraws (s : State) (f : Fault) : (s.raise f).rndDraws = s.rndDraws := rfl
@[simp] theorem State.raise_getV (s : State) (f : Fault) (k : Reg) : (s.raise f).getV k = s.getV k := rfl
@[simp] theorem State.raise_byteAt (s : State) (f : Fault) (k : Nat) : (s.raise f).byteAt k = s.byteAt k := rfl
@[simp] theorem State.raise_base (s : State) (f : Fault) : (s.raise f).base = s.base := rfl
@[simp] theorem State.raise_keyHeld (s : State) (f : Fault) (k : Fin 16) : (s.raise f).keyHeld k = s.keyHeld k := rfl

/-! ### `advance` -/

@[simp] theorem State.advance_mem (s : State) : (s.advance).mem = s.mem := rfl
@[simp] theorem State.advance_v (s : State) : (s.advance).v = s.v := rfl
@[simp] theorem State.advance_i (s : State) : (s.advance).i = s.i := rfl
@[simp] theorem State.advance_pc (s : State) : (s.advance).pc = s.pc + 2#16 := rfl
@[simp] theorem State.advance_stack (s : State) : (s.advance).stack = s.stack := rfl
@[simp] theorem State.advance_sp (s : State) : (s.advance).sp = s.sp := rfl
@[simp] theorem State.advance_dt (s : State) : (s.advance).dt = s.dt := rfl
@[simp] theorem State.advance_st (s : State) : (s.advance).st = s.st := rfl
@[simp] theorem State.advance_fb (s : State) : (s.advance).fb = s.fb := rfl
@[simp] theorem State.advance_keys (s : State) : (s.advance).keys = s.keys := rfl
@[simp] theorem State.advance_drawPending (s : State) : (s.advance).drawPending = s.drawPending := rfl
@[simp] theorem State.advance_beepPending (s : State) : (s.advance).beepPending = s.beepPending := rfl
@[simp] theorem State.advance_fault (s : State) : (s.advance).fault = s.fault := rfl
@[simp] theorem State.advance_used (s : State) : (s.advance).used = s.used := rfl
@[simp] theorem State.advance_rndSupply (s : State) : (s.advance).rndSupply = s.rndSupply := rfl
@[simp] theorem State.advance_rndDraws (s : State) : (s.advance).rndDraws = s.rndDraws := rfl
@[simp] theorem State.advance_getV (s : State) (k : Reg) : (s.advance).getV k = s.getV k := rfl
@[simp] theorem State.advance_byteAt (s : State) (k : Nat) : (s.advance).byteAt k = s.byteAt k := rfl
@[simp] theorem State.advance_base (s : State) : (s.advance).base = s.base := rfl
@[simp] theorem State.advance_keyHeld (s : State) (k : Fin 16) : (s.advance).keyHeld k = s.keyHeld k := rfl

/-! ### `redispatch` -/

@[simp] theorem State.redispatch_mem (s : State) : (s.redispatch).mem = s.mem := rfl
@[simp] theorem State.redispatch_v (s : State) : (s.redispatch).v = s.v := rfl
@[simp] theorem State.redispatch_i (s : State) : (s.redispatch).i = s.i := rfl
@[simp] theorem State.redispatch_pc (s : State) : (s.redispatch).pc = s.pc - 2#16 := rfl
@[simp] theorem State.redispatch_stack (s : State) : (s.redispatch).stack = s.stack := rfl
@[simp] theorem State.redispatch_sp (s : State) : (s.redispatch).sp = s.sp := rfl
@[simp] theorem State.redispatch_dt (s : State) : (s.redispatch).dt = s.dt := rfl
@[simp] theorem State.redispatch_st (s : State) : (s.redispatch).st = s.st := rfl
@[simp] theorem State.redispatch_fb (s : State) : (s.redispatch).fb = s.fb := rfl
@[simp] theorem State.redispatch_keys (s : State) : (s.redispatch).keys = s.keys := rfl
@[simp] theorem State.redispatch_drawPending (s : State) : (s.redispatch).drawPending = s.drawPending := rfl
@[simp] theorem State.redispatch_beepPending (s : State) : (s.redispatch).beepPending = s.beepPending := rfl
@[simp] theorem State.redispatch_fault (s : State) : (s.redispatch).fault = s.fault := rfl
@[simp] theorem State.redispatch_used (s : State) : (s.redispatch).used = s.used := rfl
@[simp] theorem State.redispatch_rndSupply (s : State) : (s.redispatch).rndSupply = s.rndSupply := rfl
@[simp] theorem State.redispatch_rndDraws (s : State) : (s.redispatch).rndDraws = s.rndDraws := rfl
@[simp] theorem State.redispatch_getV (s : State) (k : Reg) : (s.redispatch).getV k = s.getV k := rfl
@[simp] theorem State.redispatch_byteAt (s : State) (k : Nat) : (s.redispatch).byteAt k = s.byteAt k := rfl
@[simp] theorem State.redispatch_base (s : State) : (s.redispatch).base = s.base := rfl
@[simp] theorem State.redispatch_keyHeld (s : State) (k : Fin 16) : (s.redispatch).keyHeld k = s.keyHeld k := rfl

/-! ### `timerTick` -/

@[simp] theorem State.timerTick_mem (s : State) : (s.timerTick).mem = s.mem := rfl
@[simp] theorem State.timerTick_v (s : State) : (s.timerTick).v = s.v := rfl
@[simp] theorem State.timerTick_i (s : State) : (s.timerTick).i = s.i := rfl
@[simp] theorem State.timerTick_pc (s : State) : (s.timerTick).pc = s.pc := rfl
@[simp] theorem State.timerTick_stack (s : State) : (s.timerTick).stack = s.stack := rfl
@[simp] theorem State.timerTick_sp (s : State) : (s.timerTick).sp = s.sp := rfl
@[simp] theorem State.timerTick_dt (s : State) : (s.timerTick).dt = decTimer s.dt := rfl
@[simp] theorem State.timerTick_st (s : State) : (s.timerTick).st = decTimer s.st := rfl
@[simp] theorem State.timerTick_fb (s : State) : (s.timerTick).fb = s.fb := rfl
@[simp] theorem State.timerTick_keys (s : State) : (s.timerTick).keys = s.keys := rfl
@[simp] theorem State.timerTick_drawPending (s : State) : (s.timerTick).drawPending = s.drawPending := rfl
@[simp] theorem State.timerTick_beepPending (s : State) : (s.timerTick).beepPending = (s.beepPending || s.st == 1#8) := rfl
@[simp] theorem State.timerTick_fault (s : State) : (s.timerTick).fault = s.fault := rfl
@[simp] theorem State.timerTick_used (s : State) : (s.timerTick).used = s.used := rfl
@[simp] theorem State.timerTick_rndSupply (s : State) : (s.timerTick).rndSupply = s.rndSupply := rfl
@[simp] theorem State.timerTick_rndDraws (s : State) : (s.timerTick).rndDraws = s.rndDraws := rfl
@[simp] theorem State.timerTick_getV (s : State) (k : Reg) : (s.timerTick).getV k = s.getV k := rfl
@[simp] theorem State.timerTick_byteAt (s : State) (k : Nat) : (s.timerTick).byteAt k = s.byteAt k := rfl
@[simp] theorem State.timerTick_base (s : State) : (s.timerTick).base = s.base := rfl
@[simp] theorem State.timerTick_keyHeld (s : State) (k : Fin 16) : (s.timerTick).keyHeld k = s.keyHeld k := rfl

/-! ### `consumeRandom` -/

@[simp] theorem State.consumeRandom_mem (s : State) : (s.consumeRandom).mem = s.mem := rfl
@[simp] theorem State.consumeRandom_v (s : State) : (s.consumeRandom).v = s.v := rfl
@[simp] theorem State.consumeRandom_i (s : State) : (s.consumeRandom).i = s.i := rfl
@[simp] theorem State.consumeRandom_pc (s : State) : (s.consumeRandom).pc = s.pc := rfl
@[simp] theorem State.consumeRandom_stack (s : State) : (s.consumeRandom).stack = s.stack := rfl
@[simp] theorem State.consumeRandom_sp (s : State) : (s.consumeRandom).sp = s.sp := rfl
@[simp] theorem State.consumeRandom_dt (s : State) : (s.consumeRandom).dt = s.dt := rfl
@[simp] theorem State.consumeRandom_st (s : State) : (s.consumeRandom).st = s.st := rfl
@[simp] theorem State.consumeRandom_fb (s : State) : (s.consumeRandom).fb = s.fb := rfl
@[simp] theorem State.consumeRandom_keys (s : State) : (s.consumeRandom).keys = s.keys := rfl
@[simp] theorem State.consumeRandom_drawPending (s : State) : (s.consumeRandom).drawPending = s.drawPending := rfl
@[simp] theorem State.consumeRandom_beepPending (s : State) : (s.consumeRandom).beepPending = s.beepPending := rfl
@[simp] theorem State.consumeRandom_fault (s : State) : (s.consumeRandom).fault = s.fault := rfl
@[simp] theorem State.consumeRandom_used (s : State) : (s.consumeRandom).used = s.used := rfl
@[simp] theorem State.consumeRandom_rndSupply (s : State) : (s.consumeRandom).rndSupply = s.rndSupply.tail := rfl
@[simp] theorem State.consumeRandom_rndDraws (s : State) : (s.consumeRandom).rndDraws = s.rndDraws + 1 := rfl
@[simp] theorem State.consumeRandom_getV (s : State) (k : Reg) : (s.consumeRandom).getV k = s.getV k := rfl
@[simp] theorem State.consumeRandom_byteAt (s : State) (k : Nat) : (s.consumeRandom).byteAt k = s.byteAt k := rfl
@[simp] theorem State.consumeRandom_base (s : State) : (s.consumeRandom).base = s.base := rfl
@[simp] theorem State.consumeRandom_keyHeld (s : State) (k : Fin 16) : (s.consumeRandom).keyHeld k = s.keyHeld k := rfl

/-! ### `markUsed` -/

@[simp] theorem State.markUsed_mem (s : State) : (s.markUsed).mem = s.mem := rfl
@[simp] theorem State.markUsed_v (s : State) : (s.markUsed).v = s.v := rfl
@[simp] theorem State.markUsed_i (s : State) : (s.markUsed).i = s.i := rfl
@[simp] theorem State.markUsed_pc (s : State) : (s.markUsed).pc = s.pc := rfl
@[simp] theorem State.markUsed_stack (s : State) : (s.markUsed).stack = s.stack := rfl
@[simp] theorem State.markUsed_sp (s : State) : (s.markUsed).sp = s.sp := rfl
@[simp] theorem State.markUsed_dt (s : State) : (s.markUsed).dt = s.dt := rfl
@[simp] theorem State.markUsed_st (s : State) : (s.markUsed).st = s.st := rfl
@[simp] theorem State.markUsed_fb (s : State) : (s.markUsed).fb = s.fb := rfl
@[simp] theorem State.markUsed_keys (s : State) : (s.markUsed).keys = s.keys := rfl
@[simp] theorem State.markUsed_drawPending (s : State) : (s.markUsed).drawPending = s.drawPending := rfl
@[simp] theorem State.markUsed_beepPending (s : State) : (s.markUsed).beepPending = s.beepPending := rfl
@[simp] theorem State.markUsed_fault (s : State) : (s.markUsed).fault = s.fault := rfl
@[simp] theorem State.markUsed_used (s : State) : (s.markUsed).used = true := rfl
@[simp] theorem State.markUsed_rndSupply (s : State) : (s.markUsed).rndSupply = s.rndSupply := rfl
@[simp] theorem State.markUsed_rndDraws (s : State) : (s.markUsed).rndDraws = s.rndDraws := rfl
@[simp] theorem State.markUsed_getV (s : State) (k : Reg) : (s.markUsed).getV k = s.getV k := rfl
@[simp] theorem State.markUsed_byteAt (s : State) (k : Nat) : (s.markUsed).byteAt k = s.byteAt k := rfl
@[simp] theorem State.markUsed_base (s : State) : (s.markUsed).base = s.base := rfl
@[simp] theorem State.markUsed_keyHeld (s : State) (k : Fin 16) : (s.markUsed).keyHeld k = s.keyHeld k := rfl

/-! ### `State.setWithFlag` -/

@[simp] theorem State.setWithFlag_mem (s : State) (x : Reg) (b : Byte) (f : Bool) : (s.setWithFlag x b f).mem = s.mem := rfl
@[simp] theorem State.setWithFlag_i (s : State) (x : Reg) (b : Byte) (f : Bool) : (s.setWithFlag x b f).i = s.i := rfl
@[simp] theorem State.setWithFlag_pc (s : State) (x : Reg) (b : Byte) (f : Bool) : (s.setWithFlag x b f).pc = s.pc := rfl
@[simp] theorem State.setWithFlag_stack (s : State) (x : Reg) (b : Byte) (f : Bool) : (s.setWithFlag x b f).stack = s.stack := rfl
@[simp] theorem State.setWithFlag_sp (s : State) (x : Reg) (b : Byte) (f : Bool) : (s.setWithFlag x b f).sp = s.sp := rfl
@[simp] theorem State.setWithFlag_dt (s : State) (x : Reg) (b : Byte) (f : Bool) : (s.setWithFlag x b f).dt = s.dt := rfl
@[simp] theorem State.setWithFlag_st (s : State) (x : Reg) (b : Byte) (f : Bool) : (s.setWithFlag x b f).st = s.st := rfl
@[simp] theorem State.setWithFlag_fb (s : State) (x : Reg) (b : Byte) (f : Bool) : (s.setWithFlag x b f).fb = s.fb := rfl
@[simp] theorem State.setWithFlag_keys (s : State) (x : Reg) (b : Byte) (f : Bool) : (s.setWithFlag x b f).keys = s.keys := rfl
@[simp] theorem State.setWithFlag_drawPending (s : State) (x : Reg) (b : Byte) (f : Bool) : (s.setWithFlag x b f).drawPending = s.drawPending := rfl
@[simp] theorem State.setWithFlag_beepPending (s : State) (x : Reg) (b : Byte) (f : Bool) : (s.setWithFlag x b f).beepPending = s.beepPending := rfl
@[simp] theorem State.setWithFlag_fault (s : State) (x : Reg) (b : Byte) (f : Bool) : (s.setWithFlag x b f).fault = s.fault := rfl
@[simp] theorem State.setWithFlag_used (s : State) (x : Reg) (b : Byte) (f : Bool) : (s.setWithFlag x b f).used = s.used := rfl
@[simp] theorem State.setWithFlag_rndSupply (s : State) (x : Reg) (b : Byte) (f : Bool) : (s.setWithFlag x b f).rndSupply = s.rndSupply := rfl
@[simp] theorem State.setWithFlag_rndDraws (s : State) (x : Reg) (b : Byte) (f : Bool) : (s.setWithFlag x b f).rndDraws = s.rndDraws := rfl
@[simp] theorem State.setWithFlag_byteAt (s : State) (x : Reg) (b : Byte) (f : Bool) (k : Nat) : (s.setWithFlag x b f).byteAt k = s.byteAt k := rfl
@[simp] theorem State.setWithFlag_base (s : State) (x : Reg) (b : Byte) (f : Bool) : (s.setWithFlag x b f).base = s.base := rfl
@[simp] theorem State.setWithFlag_keyHeld (s : State) (x : Reg) (b : Byte) (f : Bool) (k : Fin 16) : (s.setWithFlag x b f).keyHeld k = s.keyHeld k := rfl

/-! ### `State.draw` -/

@[simp] theorem State.draw_mem (s : State) (col row : Nat) (sprite : List Byte) : (s.draw col row sprite).mem = s.mem := rfl
@[simp] theorem State.draw_i (s : State) (col row : Nat) (sprite : List Byte) : (s.draw col row sprite).i = s.i := rfl
@[simp] theorem State.draw_pc (s : State) (col row : Nat) (sprite : List Byte) : (s.draw col row sprite).pc = s.pc := rfl
@[simp] theorem State.draw_stack (s : State) (col row : Nat) (sprite : List Byte) : (s.draw col row sprite).stack = s.stack := rfl
@[simp] theorem State.draw_sp (s : State) (col row : Nat) (sprite : List Byte) : (s.draw col row sprite).sp = s.sp := rfl
@[simp] theorem State.draw_dt (s : State) (col row : Nat) (sprite : List Byte) : (s.draw col row sprite).dt = s.dt := rfl
@[simp] theorem State.draw_st (s : State) (col row : Nat) (sprite : List Byte) : (s.draw col row sprite).st = s.st := rfl
@[simp] theorem State.draw_keys (s : State) (col row : Nat) (sprite : List Byte) : (s.draw col row sprite).keys = s.keys := rfl
@[simp] theorem State.draw_beepPending (s : State) (col row : Nat) (sprite : List Byte) : (s.draw col row sprite).beepPending = s.beepPending := rfl
@[simp] theorem State.draw_fault (s : State) (col row : Nat) (sprite : List Byte) : (s.draw col row sprite).fault = s.fault := rfl
@[simp] theorem State.draw_used (s : State) (col row : Nat) (sprite : List Byte) : (s.draw col row sprite).used = s.used := rfl
@[simp] theorem State.draw_rndSupply (s : State) (col row : Nat) (sprite : List Byte) : (s.draw col row sprite).rndSupply = s.rndSupply := rfl
@[simp] theorem State.draw_rndDraws (s : State) (col row : Nat) (sprite : List Byte) : (s.draw col row sprite).rndDraws = s.rndDraws := rfl
@[simp] theorem State.draw_byteAt (s : State) (col row : Nat) (sprite : List Byte) (k : Nat) : (s.draw col row sprite).byteAt k = s.byteAt k := rfl
@[simp] theorem State.draw_base (s : State) (col row : Nat) (sprite : List Byte) : (s.draw col row sprite).base = s.base := rfl
@[simp] theorem State.draw_keyHeld (s : State) (col row : Nat) (sprite : List Byte) (k : Fin 16) : (s.draw col row sprite).keyHeld k = s.keyHeld k := rfl
@[simp] theorem State.draw_drawPending (s : State) (col row : Nat) (sprite : List Byte) : (s.draw col row sprite).drawPending = true := rfl
@[simp] theorem State.draw_fb (s : State) (col row : Nat) (sprite : List Byte) : (s.draw col row sprite).fb = (drawSprite s.fb col row sprite).1 := rfl

/-! ### `skipIf` -/

@[simp] theorem skipIf_mem (s : State) (c : Bool) : (skipIf c s).mem = s.mem := by cases c <;> rfl
@[simp] theorem skipIf_v (s : State) (c : Bool) : (skipIf c s).v = s.v := by cases c <;> rfl
@[simp] theorem skipIf_i (s : State) (c : Bool) : (skipIf c s).i = s.i := by cases c <;> rfl
@[simp] theorem skipIf_stack (s : State) (c : Bool) : (skipIf c s).stack = s.stack := by cases c <;> rfl
@[simp] theorem skipIf_sp (s : State) (c : Bool) : (skipIf c s).sp = s.sp := by cases c <;> rfl
@[simp] theorem skipIf_dt (s : State) (c : Bool) : (skipIf c s).dt = s.dt := by cases c <;> rfl
@[simp] theorem skipIf_st (s : State) (c : Bool) : (skipIf c s).st = s.st := by cases c <;> rfl
@[simp] theorem skipIf_fb (s : State) (c : Bool) : (skipIf c s).fb = s.fb := by cases c <;> rfl
@[simp] theorem skipIf_keys (s : State) (c : Bool) : (skipIf c s).keys = s.keys := by cases c <;> rfl
@[simp] theorem skipIf_drawPending (s : State) (c : Bool) : (skipIf c s).drawPending = s.drawPending := by cases c <;> rfl
@[simp] theorem skipIf_beepPending (s : State) (c : Bool) : (skipIf c s).beepPending = s.beepPending := by cases c <;> rfl
@[simp] theorem skipIf_fault (s : State) (c : Bool) : (skipIf c s).fault = s.fault := by cases c <;> rfl
@[simp] theorem skipIf_used (s : State) (c : Bool) : (skipIf c s).used = s.used := by cases c <;> rfl
@[simp] theorem skipIf_rndSupply (s : State) (c : Bool) : (skipIf c s).rndSupply = s.rndSupply := by cases c <;> rfl
@[simp] theorem skipIf_rndDraws (s : State) (c : Bool) : (skipIf c s).rndDraws = s.rndDraws := by cases c <;> rfl
@[simp] theorem skipIf_byteAt (s : State) (c : Bool) (k : Nat) : (skipIf c s).byteAt k = s.byteAt k := by cases c <;> rfl
@[simp] theorem skipIf_base (s : State) (c : Bool) : (skipIf c s).base = s.base := by cases c <;> rfl
@[simp] theorem skipIf_keyHeld (s : State) (c : Bool) (k : Fin 16) : (skipIf c s).keyHeld k = s.keyHeld k := by cases c <;> rfl
@[simp] theorem skipIf_getV (s : State) (c : Bool) (k : Reg) : (skipIf c s).getV k = s.getV k := by cases c <;> rfl

end Sys2Proof.Machine
end

