-- ==== Sys2Proof/Laws/Ops.lean ====
section
/-! SUPPORT. One lemma per shared operation, saying once everything it can do. -/

namespace Sys2Proof.Machine

/-! ## Registers -/

/-- Reading a register after a register write. -/
theorem State.getV_setV (s : State) (x r : Reg) (b : Byte) :
    (s.setV x b).getV r = if r = x then b else s.getV r := by
  simp only [State.getV, State.setV_v, Vector.get_eq_getElem, Vector.getElem_set, Fin.ext_iff]
  by_cases h : r.val = x.val
  · simp [h]
  · simp [h, Ne.symm h]

@[simp] theorem State.getV_setV_same (s : State) (x : Reg) (b : Byte) : (s.setV x b).getV x = b := by
  simp [State.getV_setV]

theorem State.getV_setV_other (s : State) {x r : Reg} (b : Byte) (h : r ≠ x) : (s.setV x b).getV r = s.getV r := by
  simp [State.getV_setV, h]

/-- Reading a register after a result and a flag write: the flag stands (R174). -/
theorem State.getV_setWithFlag (s : State) (x r : Reg) (b : Byte) (f : Bool) :
    (s.setWithFlag x b f).getV r = if r = flagReg then flagByte f else if r = x then b else s.getV r := by
  simp [State.setWithFlag, State.getV_setV]

/-- Reading a register after a block load. -/
theorem State.getV_setLowVs (s : State) (x r : Reg) (bytes : List Byte) :
    (s.setLowVs x bytes).getV r = if r.val ≤ x.val then bytes.getD r.val 0#8 else s.getV r := by
  simp [State.getV, State.setLowVs, Vector.get_eq_getElem]

theorem State.setV_onlyRegs (s : State) (x : Reg) (b : Byte) : OnlyRegs s (s.setV x b) := ⟨rfl, fun _ => rfl⟩

theorem State.setWithFlag_onlyRegs (s : State) (x : Reg) (b : Byte) (f : Bool) : OnlyRegs s (s.setWithFlag x b f) :=
  ⟨rfl, fun _ => rfl⟩

theorem State.setPc_onlyPc (s : State) (w : Word) : OnlyPc s (s.setPc w) := ⟨rfl, fun _ => rfl⟩

theorem State.setI_onlyIndex (s : State) (a : Addr) : OnlyIndex s (s.setI a) := ⟨rfl, fun _ => rfl⟩

/-- A taken skip adds 2 to `pc`; nothing else changes either way. -/
theorem skipIf_pc (c : Bool) (s : State) : (skipIf c s).pc = if c then s.pc + 2#16 else s.pc := by
  cases c <;> rfl

theorem skipIf_onlyPc (c : Bool) (s : State) : OnlyPc s (skipIf c s) := by
  cases c <;> exact ⟨rfl, fun _ => rfl⟩

/-- `V0..Vx` as a list: its length and its elements. -/
@[simp] theorem State.length_lowVs (s : State) (x : Reg) : (s.lowVs x).length = x.val + 1 := by
  have := x.isLt
  simp [State.lowVs]

theorem State.getElem_lowVs (s : State) (x : Reg) {j : Nat} (h : j < (s.lowVs x).length) :
    (s.lowVs x)[j] = s.getV ⟨j, by have := x.isLt; simp at h; omega⟩ := by
  simp [State.lowVs, State.getV, Vector.get_eq_getElem]

/-! ## Range checks and memory accesses -/

/-- An access faults exactly when it is not empty and passes `0xFFF`. -/
theorem rangeFault_cases (base len : Nat) :
    (0 < len ∧ 0xFFF < base + len - 1 ∧ rangeFault base len = some (.memFault (BitVec.ofNat 16 (max base 0x1000)))) ∨
    ((len = 0 ∨ base + len ≤ 4096) ∧ rangeFault base len = none) := by
  unfold rangeFault
  by_cases h : 0 < len ∧ 0xFFF < base + len - 1
  · exact .inl ⟨h.1, h.2, by simp [h]⟩
  · exact .inr ⟨by omega, by simp [h]⟩

/-- `I` is at most `0xFFF`, so an access through it faults at `0x1000` (R70). -/
theorem State.base_lt (s : State) : s.base < 4096 := s.i.isLt

theorem rangeFault_base (s : State) (len : Nat) :
    rangeFault s.base len = if 0 < len ∧ 0xFFF < s.base + len - 1 then some (.memFault 0x1000#16) else none := by
  have := s.base_lt
  unfold rangeFault
  rw [show max s.base 0x1000 = 0x1000 by omega]

/-- A read: the bytes in range, else the fault. -/
theorem readBytes_eq (s : State) (base len : Nat) :
    readBytes s base len = match rangeFault base len with
      | some f => .error f
      | none => .ok (Memory.readBytes s.mem base len) := rfl

/-- A store in range: only memory changes, the stored bytes are read back, every other byte reads as before, and memory
stays canonical. -/
theorem writeBytes_ok {s t : State} {base : Nat} {bytes : List Byte} (h : writeBytes s base bytes = .ok t) :
    t = s.setMem (Memory.writeBytes s.mem base bytes) ∧ OnlyMemory base bytes.length s t ∧
    (Memory.wf s.mem = true → base ≤ 4096 → Memory.wf t.mem = true ∧
      ∀ j (hj : j < bytes.length), t.byteAt (base + j) = bytes[j]) := by
  unfold writeBytes at h
  rcases rangeFault_cases base bytes.length with ⟨_, _, hf⟩ | ⟨hr, hf⟩ <;> rw [hf] at h
  · cases h
  · cases h
    refine ⟨rfl, ⟨rfl, fun a ha => Memory.read_writeBytes_outside _ ha⟩, fun hw hb => ?_⟩
    have hr' : base + bytes.length ≤ 4096 := by omega
    exact ⟨Memory.wf_writeBytes hw hr', fun j hj => Memory.read_writeBytes_inside hw hr' hj⟩

/-- A store through `I`, in one equation. -/
theorem writeBytes_base (s : State) (bytes : List Byte) :
    writeBytes s s.base bytes =
      if 0 < bytes.length ∧ 0xFFF < s.base + bytes.length - 1 then .error (.memFault 0x1000#16)
      else .ok (s.setMem (Memory.writeBytes s.mem s.base bytes)) := by
  unfold writeBytes
  rw [rangeFault_base]
  split <;> simp_all

/-- A read through `I`, in one equation. -/
theorem readBytes_base (s : State) (len : Nat) :
    readBytes s s.base len =
      if 0 < len ∧ 0xFFF < s.base + len - 1 then .error (.memFault 0x1000#16)
      else .ok (Memory.readBytes s.mem s.base len) := by
  unfold readBytes
  rw [rangeFault_base]
  split <;> simp_all

/-! ## Stack -/

/-- A push on a stack that is not full. -/
theorem push_ok (s : State) (w : Word) (h : s.sp.val < 16) :
    push s w = .ok { s with stack := s.stack.set s.sp.val w h, sp := ⟨s.sp.val + 1, by omega⟩ } := by
  simp [push, h]

/-- A push on a full stack is the fault. -/
theorem push_full (s : State) (w : Word) (h : s.sp.val = 16) : push s w = .error .stackOverflow := by
  simp [push, h]

/-- A pop of a stack that is not empty. -/
theorem popPc_ok (s : State) (h : 0 < s.sp.val) :
    popPc s = .ok { s with sp := ⟨s.sp.val - 1, by omega⟩, pc := s.stack[s.sp.val - 1]'(by omega) } := by
  simp [popPc, h]

/-- A pop of an empty stack is the fault. -/
theorem popPc_empty (s : State) (h : s.sp.val = 0) : popPc s = .error .stackUnderflow := by
  simp [popPc, h]

/-! ## Timers -/

/-- Counting down in the rule's words. -/
theorem decTimer_eq (t : Byte) : decTimer t = BitVec.ofNat 8 (t.toNat - 1) := by
  unfold decTimer
  split
  · subst_vars; rfl
  · rename_i h
    apply BitVec.eq_of_toNat_eq
    have : t.toNat ≠ 0 := fun h0 => h (BitVec.eq_of_toNat_eq h0)
    have := t.isLt
    simp [BitVec.toNat_sub]
    omega

theorem decTimer_toNat (t : Byte) : (decTimer t).toNat = t.toNat - 1 := by
  have := t.isLt
  rw [decTimer_eq, BitVec.toNat_ofNat]
  omega

/-! ## The random input -/

theorem State.randomByte_supplied (s : State) {b : Byte} {l : List Byte} (h : s.rndSupply = b :: l) :
    s.randomByte = b := by simp [State.randomByte, h]

theorem State.randomByte_free (s : State) (h : s.rndSupply = []) :
    s.randomByte = Config.freeRandomByte s.rndDraws := by simp [State.randomByte, h]

/-! ## Keys -/

/-- The scan finds the least key held. -/
theorem State.lowestKey_some {s : State} {k : Fin 16} (h : s.lowestKey = some k) :
    s.keyHeld k = true ∧ ∀ j, j < k → s.keyHeld j = false := by
  unfold State.lowestKey at h
  refine ⟨List.find?_some (p := fun k => s.keyHeld k) h, fun j hj => ?_⟩
  obtain ⟨_, i, hi, hki, hlt⟩ := List.find?_eq_some_iff_getElem.1 h
  have hik : i = k.val := by simpa [Fin.ext_iff] using hki
  subst hik
  simpa using hlt j.val hj

/-- The scan finds nothing exactly when no key is held. -/
theorem State.lowestKey_none {s : State} : s.lowestKey = none ↔ ∀ k, s.keyHeld k = false := by
  simp [State.lowestKey]

end Sys2Proof.Machine
end

