-- ==== Sys2Proof/Laws/Exec.lean ====
section
/-! SUPPORT. One equation per meaning that can fault or that goes one of two ways, and the form every meaning has: it
answers one next state. -/

namespace Sys2Proof.Machine

/-- The state an execute phase that may fault leaves. -/
def settle (s : State) : Except Fault State → State
  | .ok t => t
  | .error f => s.raise f

theorem orRaise_eq (s : State) (r : Except Fault State) : orRaise s r = .next (settle s r) := by
  cases r <;> rfl

/-- RET (R141). -/
theorem execRet_eq (s : State) :
    execRet s = .next (if h : 0 < s.sp.val then
        { s with sp := ⟨s.sp.val - 1, by omega⟩, pc := s.stack[s.sp.val - 1]'(by omega) }
      else s.raise .stackUnderflow) := by
  unfold execRet popPc
  split <;> rfl

/-- CALL (R143). -/
theorem execCall_eq (nnn : Addr) (s : State) :
    execCall nnn s = .next (if h : s.sp.val < 16 then
        { s with stack := s.stack.set s.sp.val s.pc h, sp := ⟨s.sp.val + 1, by omega⟩, pc := jumpTarget nnn }
      else s.raise .stackOverflow) := by
  unfold execCall push
  split <;> rfl

/-- LD B (R193). -/
theorem execLdB_eq (x : Reg) (s : State) :
    execLdB x s = .next (if 0xFFF < s.base + 2 then s.raise (.memFault 0x1000#16)
      else s.setMem (Memory.writeBytes s.mem s.base (bcdDigits (s.getV x)))) := by
  unfold execLdB
  rw [writeBytes_base]
  have hl : (bcdDigits (s.getV x)).length = 3 := rfl
  rw [hl]
  by_cases h : 0xFFF < s.base + 2
  · rw [if_pos ⟨by omega, by omega⟩, if_pos h]; rfl
  · rw [if_neg (by omega), if_neg h]; rfl

/-- LD [I], Vx (R194). -/
theorem execStRegs_eq (x : Reg) (s : State) :
    execStRegs x s = .next (if 0xFFF < s.base + x.val then s.raise (.memFault 0x1000#16)
      else s.setMem (Memory.writeBytes s.mem s.base (s.lowVs x))) := by
  unfold execStRegs
  rw [writeBytes_base, State.length_lowVs]
  by_cases h : 0xFFF < s.base + x.val
  · rw [if_pos ⟨by omega, by omega⟩, if_pos h]; rfl
  · rw [if_neg (by omega), if_neg h]; rfl

/-- LD Vx, [I] (R195). -/
theorem execLdRegs_eq (x : Reg) (s : State) :
    execLdRegs x s = .next (if 0xFFF < s.base + x.val then s.raise (.memFault 0x1000#16)
      else s.setLowVs x (Memory.readBytes s.mem s.base (x.val + 1))) := by
  unfold execLdRegs
  rw [readBytes_base]
  by_cases h : 0xFFF < s.base + x.val
  · rw [if_pos ⟨by omega, by omega⟩, if_pos h]; rfl
  · rw [if_neg (by omega), if_neg h]; rfl

/-- DRW (R211). -/
theorem execDrw_eq (x y : Reg) (n : Fin 16) (s : State) :
    execDrw x y n s = .next (if 0 < n.val ∧ 0xFFF < s.base + n.val - 1 then s.raise (.memFault 0x1000#16)
      else s.draw (spriteCol (s.getV x)) (spriteRow (s.getV y)) (Memory.readBytes s.mem s.base n.val)) := by
  unfold execDrw
  rw [readBytes_base]
  split <;> rfl

/-- LD Vx, K (R232). -/
theorem execLdVxK_eq (x : Reg) (s : State) :
    execLdVxK x s = .next (match s.lowestKey with
      | some k => s.setV x (keyByte k)
      | none => s.redispatch) := by
  unfold execLdVxK
  split <;> simp_all

/-- What a draw changes: registers, framebuffer, draw-pending. -/
theorem State.draw_frame (s : State) (col row : Nat) (sprite : List Byte) :
    s.draw col row sprite = { s with
      v := (s.draw col row sprite).v, fb := (drawSprite s.fb col row sprite).1, drawPending := true } := rfl

/-- `VF` after a draw is the collision flag; every other register keeps its value. -/
theorem State.getV_draw (s : State) (col row : Nat) (sprite : List Byte) (r : Reg) :
    (s.draw col row sprite).getV r =
      if r = flagReg then flagByte (drawSprite s.fb col row sprite).2 else s.getV r := by
  simp [State.draw, State.getV_setV]

/-! ## Every instruction answers one next state -/

/-- The state an instruction leaves, each meaning in the form proofs use: the conditions are those of the rules, the
effects are named operations with lemmas of their own. -/
def afterExec (i : Instr) (s : State) : State :=
  match i with
  | .nop => s
  | .cls => s.setFb Frame.blank
  | .ret =>
    if h : 0 < s.sp.val then
      { s with sp := ⟨s.sp.val - 1, by omega⟩, pc := s.stack[s.sp.val - 1]'(by omega) }
    else s.raise .stackUnderflow
  | .jp nnn => s.setPc (jumpTarget nnn)
  | .call nnn =>
    if h : s.sp.val < 16 then
      { s with stack := s.stack.set s.sp.val s.pc h, sp := ⟨s.sp.val + 1, by omega⟩, pc := jumpTarget nnn }
    else s.raise .stackOverflow
  | .seImm x kk => skipIf (s.getV x == kk) s
  | .sneImm x kk => skipIf (s.getV x != kk) s
  | .seReg x y => skipIf (s.getV x == s.getV y) s
  | .ldImm x kk => s.setV x kk
  | .addImm x kk => s.setV x (s.getV x + kk)
  | .ldReg x y => s.setV x (s.getV y)
  | .orReg x y => s.setV x (s.getV x ||| s.getV y)
  | .andReg x y => s.setV x (s.getV x &&& s.getV y)
  | .xorReg x y => s.setV x (s.getV x ^^^ s.getV y)
  | .addReg x y => s.setWithFlag x (s.getV x + s.getV y) (carryOut (s.getV x) (s.getV y))
  | .sub x y => s.setWithFlag x (s.getV x - s.getV y) (noBorrow (s.getV x) (s.getV y))
  | .shr x _ => s.setWithFlag x (s.getV x >>> 1) (shrOut (s.getV x))
  | .subn x y => s.setWithFlag x (s.getV y - s.getV x) (noBorrow (s.getV y) (s.getV x))
  | .shl x _ => s.setWithFlag x (s.getV x <<< 1) (shlOut (s.getV x))
  | .sneReg x y => skipIf (s.getV x != s.getV y) s
  | .ldI nnn => s.setI nnn
  | .jpV0 nnn => s.setPc (offsetTarget nnn (s.getV 0))
  | .rnd x kk => s.consumeRandom.setV x (s.randomByte &&& kk)
  | .drw x y n =>
    if 0 < n.val ∧ 0xFFF < s.base + n.val - 1 then s.raise (.memFault 0x1000#16)
    else s.draw (spriteCol (s.getV x)) (spriteRow (s.getV y)) (Memory.readBytes s.mem s.base n.val)
  | .skp x => skipIf (s.keyHeld (lowNibble (s.getV x))) s
  | .sknp x => skipIf (!s.keyHeld (lowNibble (s.getV x))) s
  | .ldVxDT x => s.setV x s.dt
  | .ldVxK x =>
    match s.lowestKey with
    | some k => s.setV x (keyByte k)
    | none => s.redispatch
  | .ldDTVx x => s.setDt (s.getV x)
  | .ldSTVx x => s.setSt (s.getV x)
  | .addI x => s.setI (addIndex s.i (s.getV x))
  | .ldF x => s.setI (glyphAddress (s.getV x))
  | .ldB x =>
    if 0xFFF < s.base + 2 then s.raise (.memFault 0x1000#16)
    else s.setMem (Memory.writeBytes s.mem s.base (bcdDigits (s.getV x)))
  | .stRegs x =>
    if 0xFFF < s.base + x.val then s.raise (.memFault 0x1000#16)
    else s.setMem (Memory.writeBytes s.mem s.base (s.lowVs x))
  | .ldRegs x =>
    if 0xFFF < s.base + x.val then s.raise (.memFault 0x1000#16)
    else s.setLowVs x (Memory.readBytes s.mem s.base (x.val + 1))

/-- `exec` as an equation: a rule about every instruction unfolds `afterExec` and takes its cases. -/
theorem exec_eq (i : Instr) (s : State) : exec i s = .next (afterExec i s) := by
  cases i
  case ret => exact execRet_eq s
  case call nnn => exact execCall_eq nnn s
  case drw x y n => exact execDrw_eq x y n s
  case ldVxK x => exact execLdVxK_eq x s
  case ldB x => exact execLdB_eq x s
  case stRegs x => exact execStRegs_eq x s
  case ldRegs x => exact execLdRegs_eq x s
  all_goals rfl

theorem eq_afterExec {i : Instr} {s t : State} (h : exec i s = .next t) : t = afterExec i s := by
  rw [exec_eq] at h
  cases h
  rfl

end Sys2Proof.Machine
end

