-- ==== Sys2Proof/Laws/Frame.lean ====
section
/-! SUPPORT. The framebuffer's read-after-write law and the effect of the sprite loop: each covered cell is XORed with its
sprite bit once, and the collision flag says whether a set bit met a set cell (spec/44_display.md R211, R212, R217). -/

namespace Sys2Proof.Machine

/-! ## Cells -/

/-- Reading a cell after writing one. -/
theorem Frame.cell_setCell (fb : FrameBuffer) {k k' : Nat} (b : Bool) (hk : k < 2048) (hk' : k' < 2048) :
    Frame.cell (Frame.setCell fb k b) k' = if k' = k then b else Frame.cell fb k' := by
  unfold Frame.setCell
  split
  · rename_i h
    split
    · subst_vars; rfl
    · rfl
  · rename_i h
    simp only [Frame.cell, Vector.getElem_set] at h ⊢
    by_cases hrow : k' / 64 % 32 = k / 64 % 32
    · simp only [hrow, if_true, BitVec.getLsbD_xor, BitVec.getLsbD_twoPow]
      by_cases hcol : k' % 64 = k % 64
      · have hkk : k' = k := by omega
        have hlt : k % 64 < 64 := Nat.mod_lt _ (by omega)
        subst hkk
        simp only [hlt, if_true, decide_true, Bool.and_true]
        revert h
        cases fb[k' / 64 % 32].getLsbD (k' % 64) <;> cases b <;> simp
      · have hkk : k' ≠ k := by omega
        simp [hkk, Ne.symm hcol]
    · have hkk : k' ≠ k := by rintro rfl; exact hrow rfl
      simp [hkk, Ne.symm hrow]

/-- Every cell of the blank framebuffer is 0 (R210). -/
@[simp] theorem Frame.cell_blank (k : Nat) : Frame.cell Frame.blank k = false := by
  simp [Frame.cell, Frame.blank]

/-- Two framebuffers with the same 2048 cells are equal. -/
theorem Frame.ext_cells {a b : FrameBuffer} (h : ∀ k, k < 2048 → Frame.cell a k = Frame.cell b k) : a = b := by
  apply Vector.ext
  intro row hrow
  apply BitVec.eq_of_getLsbD_eq
  intro col hcol
  have := h (row * 64 + col) (by omega)
  have h1 : (row * 64 + col) / 64 % 32 = row := by omega
  have h2 : (row * 64 + col) % 64 = col := by omega
  simpa [Frame.cell, h1, h2] using this

/-! ## Pixels -/

/-- A pixel's cell is always inside the framebuffer (R78). -/
theorem pixelCell_lt (col row r b : Nat) : pixelCell col row r b < 2048 := by
  unfold pixelCell
  omega

/-- Which sprite row and bit column fall on a cell, wrapping on both axes (R212). -/
theorem pixelCell_eq_iff {col row r b k : Nat} (hc : col < 64) (hr : row < 32) (hr' : r < 32) (hb : b < 64)
    (hk : k < 2048) : pixelCell col row r b = k ↔ r = (k / 64 + 32 - row) % 32 ∧ b = (k % 64 + 64 - col) % 64 := by
  unfold pixelCell
  omega

/-- The pixels of the sprite rows from `r` on, in the order they are drawn: cell and bit. -/
def spritePixels (col row : Nat) : Nat → List Byte → List (Nat × Bool)
  | _, [] => []
  | r, byte :: rest =>
    (List.range 8).map (fun b => (pixelCell col row r b, spriteBit byte b)) ++ spritePixels col row (r + 1) rest

/-- Draw one pixel: the loop body of R211 on a cell and a bit. -/
def xorCell (a : FrameBuffer × Bool) (p : Nat × Bool) : FrameBuffer × Bool :=
  (Frame.setCell a.1 p.1 (Frame.cell a.1 p.1 ^^ p.2), a.2 || (Frame.cell a.1 p.1 && p.2))

/-- The sprite loop draws exactly its pixels, in order. -/
theorem drawRows_eq_foldl (col row r : Nat) (sprite : List Byte) (a : FrameBuffer × Bool) :
    drawRows col row r sprite a = (spritePixels col row r sprite).foldl xorCell a := by
  induction sprite generalizing r a with
  | nil => rfl
  | cons byte rest ih =>
    rw [drawRows, ih, spritePixels, List.foldl_append, List.foldl_map]
    rfl

/-- Which pixels a sprite has. -/
theorem mem_spritePixels {col row r : Nat} {sprite : List Byte} {p : Nat × Bool} :
    p ∈ spritePixels col row r sprite ↔
      ∃ j, ∃ h : j < sprite.length, ∃ b, b < 8 ∧ p = (pixelCell col row (r + j) b, spriteBit sprite[j] b) := by
  induction sprite generalizing r with
  | nil => simp [spritePixels]
  | cons byte rest ih =>
    simp only [spritePixels, List.mem_append, List.mem_map, List.mem_range, ih]
    constructor
    · rintro (⟨b, hb, rfl⟩ | ⟨j, hj, b, hb, rfl⟩)
      · exact ⟨0, by simp, b, hb, rfl⟩
      · exact ⟨j + 1, by simpa using hj, b, hb, by simp [show r + (j + 1) = r + 1 + j by omega]⟩
    · rintro ⟨j, hj, b, hb, rfl⟩
      cases j with
      | zero => exact .inl ⟨b, hb, rfl⟩
      | succ j =>
        exact .inr ⟨j, by simpa using hj, b, hb, by simp [show r + 1 + j = r + (j + 1) by omega]⟩

/-- The pixels of one draw fall on pairwise distinct cells (R212). -/
theorem nodup_spritePixels {col row r : Nat} {sprite : List Byte} (hl : r + sprite.length ≤ 32) :
    ((spritePixels col row r sprite).map Prod.fst).Nodup := by
  induction sprite generalizing r with
  | nil => simp [spritePixels]
  | cons byte rest ih =>
    simp only [List.length_cons] at hl
    simp only [spritePixels, List.map_append, List.map_map, List.nodup_append]
    refine ⟨?_, ih (by omega), ?_⟩
    · refine (List.nodup_range (n := 8)).map_on ?_
      intro b hb b' hb' h
      simp only [List.mem_range] at hb hb'
      simp only [Function.comp_apply, pixelCell] at h
      omega
    · intro k hk k' hk'
      obtain ⟨b, hb, rfl⟩ := List.mem_map.1 hk
      obtain ⟨p, hp, rfl⟩ := List.mem_map.1 hk'
      obtain ⟨j, hj, b', hb', rfl⟩ := mem_spritePixels.1 hp
      simp only [List.mem_range] at hb
      simp only [Function.comp_apply, pixelCell]
      omega

/-- Drawing pixels on distinct cells: every cell ends as its old value XOR its bit, and the flag collects the
collisions with the OLD cells. -/
theorem foldl_xorCell (ps : List (Nat × Bool)) (a : FrameBuffer × Bool) (hn : (ps.map Prod.fst).Nodup)
    (hlt : ∀ p ∈ ps, p.1 < 2048) :
    (∀ k, k < 2048 → Frame.cell (ps.foldl xorCell a).1 k
        = (Frame.cell a.1 k ^^ ps.any fun p => p.1 == k && p.2)) ∧
    (ps.foldl xorCell a).2 = (a.2 || ps.any fun p => Frame.cell a.1 p.1 && p.2) := by
  induction ps generalizing a with
  | nil => simp
  | cons p ps ih =>
    simp only [List.map_cons, List.nodup_cons] at hn
    have hp : p.1 < 2048 := hlt p (by simp)
    obtain ⟨h1, h2⟩ := ih (xorCell a p) hn.2 fun q hq => hlt q (by simp [hq])
    have hfresh : ∀ q ∈ ps, q.1 ≠ p.1 := fun q hq h => hn.1 (h ▸ List.mem_map_of_mem hq)
    constructor
    · intro k hk
      rw [List.foldl_cons, h1 k hk, List.any_cons, xorCell, Frame.cell_setCell _ _ hp hk]
      by_cases hkp : k = p.1
      · subst hkp
        have hno : (ps.any fun q => q.1 == p.1 && q.2) = false := by
          simp only [List.any_eq_false, Bool.and_eq_true, beq_iff_eq, not_and, Bool.not_eq_true]
          exact fun q hq h => absurd h (hfresh q hq)
        simp [hno]
      · have : (p.1 == k) = false := by simpa using fun h => hkp h.symm
        simp [hkp, this]
    · rw [List.foldl_cons, h2, List.any_cons, xorCell, Bool.or_assoc]
      congr 2
      apply Bool.eq_iff_iff.2
      simp only [List.any_eq_true]
      refine exists_congr fun q => and_congr_right fun hq => ?_
      rw [Frame.cell_setCell _ _ hp (hlt q (by simp [hq])), if_neg (hfresh q hq)]

/-- Whether a sprite's bytes have a set bit on cell `k`, wrapping on both axes. -/
def spriteHits (col row : Nat) (sprite : List Byte) (k : Nat) : Bool :=
  (spritePixels col row 0 sprite).any fun p => p.1 == k && p.2

/-- The whole sprite loop, once and for all (R211, R217): cells and collision flag. -/
theorem drawSprite_spec (fb : FrameBuffer) (col row : Nat) (sprite : List Byte) (hl : sprite.length ≤ 32) :
    (∀ k, k < 2048 → Frame.cell (drawSprite fb col row sprite).1 k
        = (Frame.cell fb k ^^ spriteHits col row sprite k)) ∧
    ((drawSprite fb col row sprite).2 = true ↔
      ∃ k, k < 2048 ∧ Frame.cell fb k = true ∧ spriteHits col row sprite k = true) := by
  have hlt : ∀ p ∈ spritePixels col row 0 sprite, p.1 < 2048 := by
    intro p hp
    obtain ⟨j, _, b, _, rfl⟩ := mem_spritePixels.1 hp
    exact pixelCell_lt _ _ _ _
  obtain ⟨h1, h2⟩ := foldl_xorCell (spritePixels col row 0 sprite) (fb, false)
    (nodup_spritePixels (by omega)) hlt
  unfold drawSprite
  rw [drawRows_eq_foldl]
  refine ⟨h1, ?_⟩
  rw [h2]
  simp only [Bool.false_or, List.any_eq_true, spriteHits, Bool.and_eq_true, beq_iff_eq]
  constructor
  · rintro ⟨p, hp, hc, hb⟩
    exact ⟨p.1, hlt p hp, hc, p, hp, rfl, hb⟩
  · rintro ⟨k, _, hc, p, hp, rfl, hb⟩
    exact ⟨p, hp, hc, hb⟩

/-- A sprite read from memory hits the cells the spec's reading says (R212). -/
theorem spriteHits_memory (s : State) {col row n k : Nat} (hc : col < 64) (hr : row < 32) (hn : n ≤ 32)
    (hk : k < 2048) :
    spriteHits col row (Memory.readBytes s.mem s.base n) k = spriteOn s col row n k := by
  apply Bool.eq_iff_iff.2
  simp only [spriteHits, spriteOn, List.any_eq_true, Bool.and_eq_true, beq_iff_eq, decide_eq_true_eq]
  constructor
  · rintro ⟨p, hp, hpk, hbit⟩
    obtain ⟨j, hj, b, hb, rfl⟩ := mem_spritePixels.1 hp
    simp only [Memory.length_readBytes] at hj
    obtain ⟨hj', hb'⟩ := (pixelCell_eq_iff hc hr (by omega) (by omega) hk).1 hpk
    rw [← hj', ← hb']
    exact ⟨⟨by omega, hb⟩, by simpa [spriteBit, State.byteAt] using hbit⟩
  · rintro ⟨⟨hj, hb⟩, hbit⟩
    refine ⟨_, mem_spritePixels.2 ⟨_, by simpa using hj, _, hb, rfl⟩, ?_, ?_⟩
    · exact (pixelCell_eq_iff hc hr (by omega) (by omega) hk).2 ⟨by omega, by omega⟩
    · simpa [spriteBit, State.byteAt] using hbit

end Sys2Proof.Machine
end

