-- ==== Sys2Proof/Laws/PerInstr.lean ====
section
/-! SUPPORT. Per-instruction family: the encoding of every instruction lies in the row of the opcode table (R96) that its
mnemonic names. -/

namespace Sys2Proof

/-- A format `A` or `RI`/`RRN` word with a whole family as its row. -/
theorem selects_family (n : String) (bits op : Word) (h : op.toNat / 4096 * 4096 = bits.toNat) :
    (OpRow.mk n 0xF000 bits).selects op = true := by
  rw [OpRow.selects, beq_iff_eq]
  exact BitVec.eq_of_toNat_eq ((mask_family op).trans h)

/-- A word whose family and low nibble are fixed by its row. -/
theorem selects_nibble (n : String) (bits op : Word) (h : op.toNat / 4096 * 4096 + op.toNat % 16 = bits.toNat) :
    (OpRow.mk n 0xF00F bits).selects op = true := by
  rw [OpRow.selects, beq_iff_eq]
  exact BitVec.eq_of_toNat_eq ((mask_family_nibble op).trans h)

/-- A word whose family and low byte are fixed by its row. -/
theorem selects_byte (n : String) (bits op : Word) (h : op.toNat / 4096 * 4096 + op.toNat % 256 = bits.toNat) :
    (OpRow.mk n 0xF0FF bits).selects op = true := by
  rw [OpRow.selects, beq_iff_eq]
  exact BitVec.eq_of_toNat_eq ((mask_family_byte op).trans h)

/-- A format `A` word in the row of its family. -/
theorem selects_encodeA (n : String) (bits : Word) (fam : BitVec 4) (nnn : Addr) (h : fam.toNat * 4096 = bits.toNat) :
    (OpRow.mk n 0xF000 bits).selects (encodeA fam nnn) = true := by
  have := nnn.isLt
  apply selects_family
  rw [encodeA_toNat, show (fam.toNat * 4096 + nnn.toNat) / 4096 = fam.toNat by omega, h]

/-- A format `RI` word in the row of its family. -/
theorem selects_encodeRI (n : String) (bits : Word) (fam : BitVec 4) (x : Reg) (kk : Byte)
    (h : fam.toNat * 4096 = bits.toNat) : (OpRow.mk n 0xF000 bits).selects (encodeRI fam x kk) = true := by
  have := kk.isLt
  have := x.isLt
  apply selects_family
  rw [encodeRI_toNat, show (fam.toNat * 4096 + x.val * 256 + kk.toNat) / 4096 = fam.toNat by omega, h]

/-- A format `RRN` word in the row of its family. -/
theorem selects_encodeRRN (n : String) (bits : Word) (fam : BitVec 4) (x y m : Fin 16)
    (h : fam.toNat * 4096 = bits.toNat) : (OpRow.mk n 0xF000 bits).selects (encodeRRN fam x y m) = true := by
  have := x.isLt
  have := y.isLt
  have := m.isLt
  apply selects_family
  rw [encodeRRN_toNat,
    show (fam.toNat * 4096 + x.val * 256 + y.val * 16 + m.val) / 4096 = fam.toNat by omega, h]

/-- A format `RR` word in the row of its family and sub-opcode. -/
theorem selects_encodeRR (n : String) (bits : Word) (fam : BitVec 4) (x y m : Fin 16)
    (h : fam.toNat * 4096 + m.val = bits.toNat) : (OpRow.mk n 0xF00F bits).selects (encodeRRN fam x y m) = true := by
  have := x.isLt
  have := y.isLt
  have := m.isLt
  apply selects_nibble
  rw [encodeRRN_toNat,
    show (fam.toNat * 4096 + x.val * 256 + y.val * 16 + m.val) / 4096 = fam.toNat by omega, ← h]
  omega

/-- A format `R` word in the row of its family and sub-opcode. -/
theorem selects_encodeR (n : String) (bits : Word) (fam : BitVec 4) (x : Reg) (kk : Byte)
    (h : fam.toNat * 4096 + kk.toNat = bits.toNat) : (OpRow.mk n 0xF0FF bits).selects (encodeRI fam x kk) = true := by
  have := kk.isLt
  have := x.isLt
  apply selects_byte
  rw [encodeRI_toNat, show (fam.toNat * 4096 + x.val * 256 + kk.toNat) / 4096 = fam.toNat by omega, ← h]
  omega

/-- Some row of the table has the instruction's mnemonic and is selected by its encoding. -/
def Laws.EncodesInItsRow.Statement (i : Instr) : Prop :=
  ∃ r ∈ opcodeTable, r.mnemonic = i.mnemonic ∧ r.selects (encode i) = true

theorem Laws.EncodesInItsRow.nop : Laws.EncodesInItsRow.Statement (.nop) :=
  ⟨⟨"NOP", 0xFFFF, 0x0000⟩, by simp [opcodeTable, opRows1, opRows2, opRows3], rfl, rfl⟩

theorem Laws.EncodesInItsRow.cls : Laws.EncodesInItsRow.Statement (.cls) :=
  ⟨⟨"CLS", 0xFFFF, 0x00E0⟩, by simp [opcodeTable, opRows1, opRows2, opRows3], rfl, rfl⟩

theorem Laws.EncodesInItsRow.ret : Laws.EncodesInItsRow.Statement (.ret) :=
  ⟨⟨"RET", 0xFFFF, 0x00EE⟩, by simp [opcodeTable, opRows1, opRows2, opRows3], rfl, rfl⟩

theorem Laws.EncodesInItsRow.jp (nnn : Addr) : Laws.EncodesInItsRow.Statement (.jp nnn) :=
  ⟨⟨"JP_nnn", 0xF000, 0x1000⟩, by simp [opcodeTable, opRows1, opRows2, opRows3], rfl, selects_encodeA _ _ _ _ rfl⟩

theorem Laws.EncodesInItsRow.call (nnn : Addr) : Laws.EncodesInItsRow.Statement (.call nnn) :=
  ⟨⟨"CALL_nnn", 0xF000, 0x2000⟩, by simp [opcodeTable, opRows1, opRows2, opRows3], rfl, selects_encodeA _ _ _ _ rfl⟩

theorem Laws.EncodesInItsRow.seImm (x : Reg) (kk : Byte) : Laws.EncodesInItsRow.Statement (.seImm x kk) :=
  ⟨⟨"SE_Vx__kk", 0xF000, 0x3000⟩, by simp [opcodeTable, opRows1, opRows2, opRows3], rfl, selects_encodeRI _ _ _ _ _ rfl⟩

theorem Laws.EncodesInItsRow.sneImm (x : Reg) (kk : Byte) : Laws.EncodesInItsRow.Statement (.sneImm x kk) :=
  ⟨⟨"SNE_Vx__kk", 0xF000, 0x4000⟩, by simp [opcodeTable, opRows1, opRows2, opRows3], rfl, selects_encodeRI _ _ _ _ _ rfl⟩

theorem Laws.EncodesInItsRow.seReg (x y : Reg) : Laws.EncodesInItsRow.Statement (.seReg x y) :=
  ⟨⟨"SE_Vx__Vy", 0xF00F, 0x5000⟩, by simp [opcodeTable, opRows1, opRows2, opRows3], rfl, selects_encodeRR _ _ _ _ _ _ rfl⟩

theorem Laws.EncodesInItsRow.ldImm (x : Reg) (kk : Byte) : Laws.EncodesInItsRow.Statement (.ldImm x kk) :=
  ⟨⟨"LD_Vx__kk", 0xF000, 0x6000⟩, by simp [opcodeTable, opRows1, opRows2, opRows3], rfl, selects_encodeRI _ _ _ _ _ rfl⟩

theorem Laws.EncodesInItsRow.addImm (x : Reg) (kk : Byte) : Laws.EncodesInItsRow.Statement (.addImm x kk) :=
  ⟨⟨"ADD_Vx__kk", 0xF000, 0x7000⟩, by simp [opcodeTable, opRows1, opRows2, opRows3], rfl, selects_encodeRI _ _ _ _ _ rfl⟩

theorem Laws.EncodesInItsRow.ldReg (x y : Reg) : Laws.EncodesInItsRow.Statement (.ldReg x y) :=
  ⟨⟨"LD_Vx__Vy", 0xF00F, 0x8000⟩, by simp [opcodeTable, opRows1, opRows2, opRows3], rfl, selects_encodeRR _ _ _ _ _ _ rfl⟩

theorem Laws.EncodesInItsRow.orReg (x y : Reg) : Laws.EncodesInItsRow.Statement (.orReg x y) :=
  ⟨⟨"OR_Vx__Vy", 0xF00F, 0x8001⟩, by simp [opcodeTable, opRows1, opRows2, opRows3], rfl, selects_encodeRR _ _ _ _ _ _ rfl⟩

theorem Laws.EncodesInItsRow.andReg (x y : Reg) : Laws.EncodesInItsRow.Statement (.andReg x y) :=
  ⟨⟨"AND_Vx__Vy", 0xF00F, 0x8002⟩, by simp [opcodeTable, opRows1, opRows2, opRows3], rfl, selects_encodeRR _ _ _ _ _ _ rfl⟩

theorem Laws.EncodesInItsRow.xorReg (x y : Reg) : Laws.EncodesInItsRow.Statement (.xorReg x y) :=
  ⟨⟨"XOR_Vx__Vy", 0xF00F, 0x8003⟩, by simp [opcodeTable, opRows1, opRows2, opRows3], rfl, selects_encodeRR _ _ _ _ _ _ rfl⟩

theorem Laws.EncodesInItsRow.addReg (x y : Reg) : Laws.EncodesInItsRow.Statement (.addReg x y) :=
  ⟨⟨"ADD_Vx__Vy", 0xF00F, 0x8004⟩, by simp [opcodeTable, opRows1, opRows2, opRows3], rfl, selects_encodeRR _ _ _ _ _ _ rfl⟩

theorem Laws.EncodesInItsRow.sub (x y : Reg) : Laws.EncodesInItsRow.Statement (.sub x y) :=
  ⟨⟨"SUB_Vx__Vy", 0xF00F, 0x8005⟩, by simp [opcodeTable, opRows1, opRows2, opRows3], rfl, selects_encodeRR _ _ _ _ _ _ rfl⟩

theorem Laws.EncodesInItsRow.shr (x y : Reg) : Laws.EncodesInItsRow.Statement (.shr x y) :=
  ⟨⟨"SHR_Vx", 0xF00F, 0x8006⟩, by simp [opcodeTable, opRows1, opRows2, opRows3], rfl, selects_encodeRR _ _ _ _ _ _ rfl⟩

theorem Laws.EncodesInItsRow.subn (x y : Reg) : Laws.EncodesInItsRow.Statement (.subn x y) :=
  ⟨⟨"SUBN_Vx__Vy", 0xF00F, 0x8007⟩, by simp [opcodeTable, opRows1, opRows2, opRows3], rfl, selects_encodeRR _ _ _ _ _ _ rfl⟩

theorem Laws.EncodesInItsRow.shl (x y : Reg) : Laws.EncodesInItsRow.Statement (.shl x y) :=
  ⟨⟨"SHL_Vx", 0xF00F, 0x800E⟩, by simp [opcodeTable, opRows1, opRows2, opRows3], rfl, selects_encodeRR _ _ _ _ _ _ rfl⟩

theorem Laws.EncodesInItsRow.sneReg (x y : Reg) : Laws.EncodesInItsRow.Statement (.sneReg x y) :=
  ⟨⟨"SNE_Vx__Vy", 0xF00F, 0x9000⟩, by simp [opcodeTable, opRows1, opRows2, opRows3], rfl, selects_encodeRR _ _ _ _ _ _ rfl⟩

theorem Laws.EncodesInItsRow.ldI (nnn : Addr) : Laws.EncodesInItsRow.Statement (.ldI nnn) :=
  ⟨⟨"LD_I__nnn", 0xF000, 0xA000⟩, by simp [opcodeTable, opRows1, opRows2, opRows3], rfl, selects_encodeA _ _ _ _ rfl⟩

theorem Laws.EncodesInItsRow.jpV0 (nnn : Addr) : Laws.EncodesInItsRow.Statement (.jpV0 nnn) :=
  ⟨⟨"JP_V0__nnn", 0xF000, 0xB000⟩, by simp [opcodeTable, opRows1, opRows2, opRows3], rfl, selects_encodeA _ _ _ _ rfl⟩

theorem Laws.EncodesInItsRow.rnd (x : Reg) (kk : Byte) : Laws.EncodesInItsRow.Statement (.rnd x kk) :=
  ⟨⟨"RND_Vx__kk", 0xF000, 0xC000⟩, by simp [opcodeTable, opRows1, opRows2, opRows3], rfl, selects_encodeRI _ _ _ _ _ rfl⟩

theorem Laws.EncodesInItsRow.drw (x y : Reg) (n : Fin 16) : Laws.EncodesInItsRow.Statement (.drw x y n) :=
  ⟨⟨"DRW_Vx__Vy__n", 0xF000, 0xD000⟩, by simp [opcodeTable, opRows1, opRows2, opRows3], rfl, selects_encodeRRN _ _ _ _ _ _ rfl⟩

theorem Laws.EncodesInItsRow.skp (x : Reg) : Laws.EncodesInItsRow.Statement (.skp x) :=
  ⟨⟨"SKP_Vx", 0xF0FF, 0xE09E⟩, by simp [opcodeTable, opRows1, opRows2, opRows3], rfl, selects_encodeR _ _ _ _ _ rfl⟩

theorem Laws.EncodesInItsRow.sknp (x : Reg) : Laws.EncodesInItsRow.Statement (.sknp x) :=
  ⟨⟨"SKNP_Vx", 0xF0FF, 0xE0A1⟩, by simp [opcodeTable, opRows1, opRows2, opRows3], rfl, selects_encodeR _ _ _ _ _ rfl⟩

theorem Laws.EncodesInItsRow.ldVxDT (x : Reg) : Laws.EncodesInItsRow.Statement (.ldVxDT x) :=
  ⟨⟨"LD_Vx__DT", 0xF0FF, 0xF007⟩, by simp [opcodeTable, opRows1, opRows2, opRows3], rfl, selects_encodeR _ _ _ _ _ rfl⟩

theorem Laws.EncodesInItsRow.ldVxK (x : Reg) : Laws.EncodesInItsRow.Statement (.ldVxK x) :=
  ⟨⟨"LD_Vx__K", 0xF0FF, 0xF00A⟩, by simp [opcodeTable, opRows1, opRows2, opRows3], rfl, selects_encodeR _ _ _ _ _ rfl⟩

theorem Laws.EncodesInItsRow.ldDTVx (x : Reg) : Laws.EncodesInItsRow.Statement (.ldDTVx x) :=
  ⟨⟨"LD_DT__Vx", 0xF0FF, 0xF015⟩, by simp [opcodeTable, opRows1, opRows2, opRows3], rfl, selects_encodeR _ _ _ _ _ rfl⟩

theorem Laws.EncodesInItsRow.ldSTVx (x : Reg) : Laws.EncodesInItsRow.Statement (.ldSTVx x) :=
  ⟨⟨"LD_ST__Vx", 0xF0FF, 0xF018⟩, by simp [opcodeTable, opRows1, opRows2, opRows3], rfl, selects_encodeR _ _ _ _ _ rfl⟩

theorem Laws.EncodesInItsRow.addI (x : Reg) : Laws.EncodesInItsRow.Statement (.addI x) :=
  ⟨⟨"ADD_I__Vx", 0xF0FF, 0xF01E⟩, by simp [opcodeTable, opRows1, opRows2, opRows3], rfl, selects_encodeR _ _ _ _ _ rfl⟩

theorem Laws.EncodesInItsRow.ldF (x : Reg) : Laws.EncodesInItsRow.Statement (.ldF x) :=
  ⟨⟨"LD_F__Vx", 0xF0FF, 0xF029⟩, by simp [opcodeTable, opRows1, opRows2, opRows3], rfl, selects_encodeR _ _ _ _ _ rfl⟩

theorem Laws.EncodesInItsRow.ldB (x : Reg) : Laws.EncodesInItsRow.Statement (.ldB x) :=
  ⟨⟨"LD_B__Vx", 0xF0FF, 0xF033⟩, by simp [opcodeTable, opRows1, opRows2, opRows3], rfl, selects_encodeR _ _ _ _ _ rfl⟩

theorem Laws.EncodesInItsRow.stRegs (x : Reg) : Laws.EncodesInItsRow.Statement (.stRegs x) :=
  ⟨⟨"LD__I___Vx", 0xF0FF, 0xF055⟩, by simp [opcodeTable, opRows1, opRows2, opRows3], rfl, selects_encodeR _ _ _ _ _ rfl⟩

theorem Laws.EncodesInItsRow.ldRegs (x : Reg) : Laws.EncodesInItsRow.Statement (.ldRegs x) :=
  ⟨⟨"LD_Vx___I", 0xF0FF, 0xF065⟩, by simp [opcodeTable, opRows1, opRows2, opRows3], rfl, selects_encodeR _ _ _ _ _ rfl⟩

end Sys2Proof
end

