-- ==== Sys2Proof/Laws/Step.lean ====
section
/-! SUPPORT. Everything a step can do, said once: the fetch, and the four cases of a tick. -/

namespace Sys2Proof.Machine

/-- The fetch: a big-endian word, or the fault above `0xFFE` (R121). -/
theorem fetchWord_cases (s : State) :
    (s.pc.toNat ≤ 0xFFE ∧ fetchWord s = .ok (s.wordAt s.pc.toNat)) ∨
    (0xFFE < s.pc.toNat ∧
      fetchWord s = .error (.memFault (BitVec.ofNat 16 (max s.pc.toNat 0x1000)))) := by
  unfold fetchWord
  rcases rangeFault_cases s.pc.toNat 2 with ⟨_, h, hf⟩ | ⟨h, hf⟩
  · exact .inr ⟨by omega, by rw [hf]⟩
  · exact .inl ⟨by omega, by rw [hf, wordOfBytes_eq]; rfl⟩

/-- The timer tick in the rule's words. -/
theorem State.timerTick_eq (s : State) : s.timerTick = timersTicked s := by
  have hst : (s.st == 1#8) = decide (s.st.toNat = 1) := by
    rw [Bool.eq_iff_iff, beq_iff_eq, decide_eq_true_eq, ← BitVec.toNat_inj]
    rfl
  simp only [State.timerTick, timersTicked, decTimer_eq, hst]

/-- A step, as an equation: halted, fetch fault, unknown word, or an instruction. -/
theorem step_eq (s : State) :
    step s = match s.fault with
      | some _ => .next s
      | none =>
        if 0xFFE < s.pc.toNat then
          .next (s.markUsed.raise (.memFault (BitVec.ofNat 16 (max s.pc.toNat 0x1000)))).timerTick
        else
          match decode (s.wordAt s.pc.toNat) with
          | none => .next (s.markUsed.advance.raise (.unknownOpcode (s.wordAt s.pc.toNat))).timerTick
          | some i => finishTick (exec i s.markUsed.advance) := by
  unfold step tick
  cases s.fault with
  | some f => rfl
  | none =>
    simp only [fetchAndExecute]
    rcases fetchWord_cases s.markUsed with ⟨h, hf⟩ | ⟨h, hf⟩
    · have h' : ¬ 0xFFE < s.pc.toNat := Nat.not_lt.2 h
      rw [hf, if_neg h']
      simp only [executeWord]
      have hw : s.markUsed.wordAt s.markUsed.pc.toNat = s.wordAt s.pc.toNat := rfl
      rw [hw]
      cases decode (s.wordAt s.pc.toNat) <;> rfl
    · have h' : 0xFFE < s.pc.toNat := h
      rw [hf, if_pos h']
      rfl

/-- What a step that answers a next state did. -/
theorem step_cases {s t : State} (h : step s = .next t) :
    (∃ f, s.fault = some f ∧ t = s) ∨
    (Running s ∧ 0xFFE < s.pc.toNat ∧
      t = (s.markUsed.raise (.memFault (BitVec.ofNat 16 (max s.pc.toNat 0x1000)))).timerTick) ∨
    (Running s ∧ s.pc.toNat ≤ 0xFFE ∧ decode (s.wordAt s.pc.toNat) = none ∧
      t = (s.markUsed.advance.raise (.unknownOpcode (s.wordAt s.pc.toNat))).timerTick) ∨
    (∃ i u, Running s ∧ s.pc.toNat ≤ 0xFFE ∧ decode (s.wordAt s.pc.toNat) = some i ∧
      exec i s.markUsed.advance = .next u ∧ t = u.timerTick) := by
  rw [step_eq] at h
  unfold Running
  split at h
  · rename_i f hf
    cases h
    exact .inl ⟨f, hf, rfl⟩
  · rename_i hf
    split at h
    · rename_i hpc
      cases h
      exact .inr (.inl ⟨hf, hpc, rfl⟩)
    · rename_i hpc
      split at h
      · rename_i hd
        cases h
        exact .inr (.inr (.inl ⟨hf, by omega, hd, rfl⟩))
      · rename_i i hd
        cases hu : exec i s.markUsed.advance with
        | next u =>
          rw [hu] at h
          cases h
          exact .inr (.inr (.inr ⟨i, u, hf, by omega, hd, hu, rfl⟩))
        | fault f => rw [hu] at h; cases h
        | refused r => rw [hu] at h; cases h

end Sys2Proof.Machine
end

