-- ==== Sys2Proof/Tests/Slice0.lean ====
section
/-! SUPPORT. The model's own tests: ill-formed terms the checks refuse, one word per constructor written out from the
table of spec/30_encoding.md R96, one step per instruction with the expected values of spec/95_test_vectors.md (the
vector's id stands in each docstring), and a witness for the hypotheses of every obligation. -/

namespace Sys2Proof.Tests
open Sys2Proof Sys2Proof.Machine

/-! ## Helpers -/

/-- The reset state with some registers and `I` set. -/
def machine (regs : List (Reg × Byte)) (i : Addr) : State :=
  regs.foldl (fun s p => s.setV p.1 p.2) { State.reset with i := i }

/-- The reset state with bytes written at an address. -/
def withBytes (base : Nat) (bytes : List Byte) (s : State) : State := s.setMem (Memory.writeBytes s.mem base bytes)

/-- A property of the next state. -/
def after (o : Host.Outcome State Fault Refusal) (p : State → Bool) : Bool :=
  match o with
  | .next t => p t
  | .fault _ => false
  | .refused _ => false

/-- A property of the state after one step that runs the word `op`. -/
def ticks (s : State) (op : Nat) (p : State → Bool) : Bool := after (step (s.withFetchWord 16 op)) p

/-- The bytes at an address. -/
def bytesAt (s : State) (base len : Nat) : List Byte := Memory.readBytes s.mem base len

/-! ## What the checks refuse -/

/-- R100: the assembler's form of `SHR` has 0 in the unused field. -/
theorem smoke_shr_not_canonical : (Instr.shr 3 5).canonical = false ∧ (Instr.shr 3 0).canonical = true := by decide
theorem smoke_shl_not_canonical : (Instr.shl 3 5).canonical = false ∧ (Instr.shl 3 0).canonical = true := by decide
/-- R253: 3585 bytes do not fit, 3584 do. -/
theorem smoke_program_too_long : programFits (List.replicate 3585 0) = false ∧ programFits (List.replicate 3584 0) = true := by
  simp only [programFits, List.length_replicate]
  decide
/-- R47: a font is 80 bytes long, -/
theorem smoke_font_short : fontWf (defaultFont.take 79) = false ∧ fontWf defaultFont = true := by decide
/-- its glyphs are 4 pixels wide, -/
theorem smoke_font_wide : fontWf (0xF8 :: defaultFont.tail) = false := by decide
/-- and glyph 0 is not blank. -/
theorem smoke_font_blank_zero : fontWf ([0, 0, 0, 0, 0] ++ defaultFont.drop 5) = false := by decide
/-- R97: words that match no row are refused by name (T120 to T12A), and a lone byte too. -/
theorem smoke_unknown_words :
    ([0x0123, 0x00E1, 0x00FE, 0x5121, 0x8AB8, 0x8ABF, 0x9001, 0xE19F, 0xE0A2, 0xF0FF, 0xF000] : List Word).all
      (fun op => (decode op).isNone) = true := by decide
theorem smoke_decode_errors :
    decodeBytes [0x01, 0x23, 0xFF] = .error (.unknownOpcode 0x0123) ∧ decodeBytes [0x12] = .error (.truncated [0x12]) := by
  constructor <;> rfl

/-! ## Decoding: one word for every constructor, written out from R96 -/

theorem decode_system : decode 0x0000 = some .nop ∧ decode 0x00E0 = some .cls ∧ decode 0x00EE = some .ret := by decide
theorem decode_jumps :
    decode 0x1234 = some (.jp 0x234) ∧ decode 0x2FFE = some (.call 0xFFE) ∧ decode 0xB301 = some (.jpV0 0x301) := by decide
theorem decode_skips :
    decode 0x302A = some (.seImm 0 0x2A) ∧ decode 0x4101 = some (.sneImm 1 0x01) ∧ decode 0x5230 = some (.seReg 2 3) ∧
      decode 0x9AB0 = some (.sneReg 0xA 0xB) := by decide
theorem decode_loads :
    decode 0x6F07 = some (.ldImm 0xF 0x07) ∧ decode 0x7320 = some (.addImm 3 0x20) ∧ decode 0xA2F0 = some (.ldI 0x2F0) := by
  decide
theorem decode_alu :
    decode 0x8120 = some (.ldReg 1 2) ∧ decode 0x8121 = some (.orReg 1 2) ∧ decode 0x8122 = some (.andReg 1 2) ∧
      decode 0x8123 = some (.xorReg 1 2) ∧ decode 0x8124 = some (.addReg 1 2) ∧ decode 0x8125 = some (.sub 1 2) ∧
      decode 0x8126 = some (.shr 1 2) ∧ decode 0x8127 = some (.subn 1 2) ∧ decode 0x812E = some (.shl 1 2) := by decide
theorem decode_rnd_drw : decode 0xC30F = some (.rnd 3 0x0F) ∧ decode 0xD12F = some (.drw 1 2 0xF) := by decide
theorem decode_keys : decode 0xE39E = some (.skp 3) ∧ decode 0xE3A1 = some (.sknp 3) := by decide
theorem decode_misc :
    decode 0xF307 = some (.ldVxDT 3) ∧ decode 0xF30A = some (.ldVxK 3) ∧ decode 0xF315 = some (.ldDTVx 3) ∧
      decode 0xF318 = some (.ldSTVx 3) ∧ decode 0xF31E = some (.addI 3) ∧ decode 0xF329 = some (.ldF 3) ∧
      decode 0xF333 = some (.ldB 3) ∧ decode 0xF355 = some (.stRegs 3) ∧ decode 0xF365 = some (.ldRegs 3) := by decide
/-- The host's numbering: the word is the whole instruction. -/
theorem decode_table_word :
    decodeTableWord 16 0xD12F = some (.drw 1 2 0xF) ∧ decodeTableWord 16 0x8AB8 = none := by decide
/-- R65, T133: the first byte in memory is the high byte. -/
theorem decode_big_endian : decodeBytes [0x34, 0x12, 0x99] = .ok (.seImm 4 0x12, [0x99]) := by rfl
theorem encode_bytes_big_endian : encodeBytes (.jp 0x234) = [0x12, 0x34] := by decide
theorem encode_words : encode (.drw 1 2 5) = 0xD125 ∧ encode (.ldRegs 0xF) = 0xFF65 ∧ encode (.shl 3 0) = 0x830E := by decide
/-- R100: the text of a line; a word of another `y` disassembles to the same text; a word of no row is a `DW`. -/
theorem asm_text :
    asmOfWord 0x8306 = "SHR V3" ∧ asmOfWord 0x8356 = "SHR V3" ∧ asmOfWord 0xD12F = "DRW V1, V2, 0xF" ∧
      asmOfWord 0x6A0C = "LD VA, 0x0C" ∧ asmOfWord 0xF255 = "LD [I], V2" ∧ asmOfWord 0x0123 = "DW 0x0123" := by decide

/-! ## Control flow -/

/-- T10. -/
theorem test_nop : ticks (machine [] 0) 0x0000 (fun t => t.pc == 0x202 && t.used && t.fault == none) = true := by decide
/-- T11. -/
theorem test_jp : ticks (machine [] 0) 0x1234 (fun t => t.pc == 0x234) = true := by decide
/-- T14. -/
theorem test_call : ticks (machine [] 0) 0x2300 (fun t => t.pc == 0x300 && t.sp == 1 && t.stack.get 0 == 0x202) = true := by decide
/-- T15: the full stack. -/
theorem test_call_overflow :
    ticks { State.reset with sp := 16 } 0x2300 (fun t => t.pc == 0x202 && t.sp == 16 && t.fault == some .stackOverflow) = true := by
  decide
/-- T16: the slot keeps its value. -/
theorem test_ret :
    ticks { State.reset with sp := 1, stack := State.reset.stack.set 0 0xABC } 0x00EE
      (fun t => t.pc == 0xABC && t.sp == 0 && t.stack.get 0 == 0xABC) = true := by decide
/-- T17. -/
theorem test_ret_underflow :
    ticks (machine [] 0) 0x00EE (fun t => t.pc == 0x202 && t.fault == some .stackUnderflow) = true := by decide
/-- T18, T19. -/
theorem test_se_imm :
    (ticks (machine [(0, 0x2A)] 0) 0x302A (fun t => t.pc == 0x204) && ticks (machine [(0, 0x2B)] 0) 0x302A (fun t => t.pc == 0x202)) = true := by
  decide
/-- T20, T21. -/
theorem test_sne_imm :
    (ticks (machine [] 0) 0x4101 (fun t => t.pc == 0x204) && ticks (machine [(1, 0x01)] 0) 0x4101 (fun t => t.pc == 0x202)) = true := by
  decide
/-- T22, T23. -/
theorem test_se_reg :
    (ticks (machine [(2, 7), (3, 7)] 0) 0x5230 (fun t => t.pc == 0x204) &&
      ticks (machine [(2, 7), (3, 8)] 0) 0x5230 (fun t => t.pc == 0x202)) = true := by decide
/-- T25, T26. -/
theorem test_sne_reg :
    (ticks (machine [(2, 7), (3, 8)] 0) 0x9230 (fun t => t.pc == 0x204) &&
      ticks (machine [(2, 7)] 0) 0x9220 (fun t => t.pc == 0x202)) = true := by decide
/-- T28: the sum is not reduced. -/
theorem test_jp_v0 : ticks (machine [(0, 0xFF)] 0) 0xBFFF (fun t => t.pc == 0x10FE) = true := by decide

/-! ## Registers and arithmetic -/

/-- T31. -/
theorem test_ld_imm : ticks (machine [] 0) 0x6F07 (fun t => t.getV 15 == 7) = true := by decide
/-- T32: `VF` unchanged. -/
theorem test_add_imm : ticks (machine [(3, 0xF0), (15, 5)] 0) 0x7320 (fun t => t.getV 3 == 0x10 && t.getV 15 == 5) = true := by decide
/-- T35. -/
theorem test_ld_reg : ticks (machine [(1, 0x42)] 0) 0x8010 (fun t => t.getV 0 == 0x42) = true := by decide
/-- T36. -/
theorem test_or : ticks (machine [(0, 0xF0), (1, 0x0F), (15, 7)] 0) 0x8011 (fun t => t.getV 0 == 0xFF && t.getV 15 == 7) = true := by decide
/-- T37. -/
theorem test_and : ticks (machine [(0, 0xF0), (1, 0x3C), (15, 7)] 0) 0x8012 (fun t => t.getV 0 == 0x30 && t.getV 15 == 7) = true := by decide
/-- T38. -/
theorem test_xor : ticks (machine [(0, 0xF0), (1, 0x3C), (15, 7)] 0) 0x8013 (fun t => t.getV 0 == 0xCC && t.getV 15 == 7) = true := by decide
/-- T41: a sum of exactly 255 is no carry. -/
theorem test_add_no_carry : ticks (machine [(0, 0xFE), (1, 1), (15, 1)] 0) 0x8014 (fun t => t.getV 0 == 0xFF && t.getV 15 == 0) = true := by decide
/-- T43: with `x = F` the carry stands. -/
theorem test_add_into_flag : ticks (machine [(15, 0xFF), (1, 1)] 0) 0x8F14 (fun t => t.getV 15 == 1) = true := by decide
/-- T47. -/
theorem test_sub_borrow : ticks (machine [(0, 3), (1, 5), (15, 1)] 0) 0x8015 (fun t => t.getV 0 == 0xFE && t.getV 15 == 0) = true := by decide
/-- T48: equal operands do not borrow. -/
theorem test_sub_equal : ticks (machine [(0, 5), (1, 5)] 0) 0x8015 (fun t => t.getV 0 == 0 && t.getV 15 == 1) = true := by decide
/-- T52: `Vy` is ignored. -/
theorem test_shr : ticks (machine [(2, 4), (1, 0xFF), (15, 1)] 0) 0x8216 (fun t => t.getV 2 == 2 && t.getV 15 == 0 && t.getV 1 == 0xFF) = true := by decide
/-- T53. -/
theorem test_shr_flag : ticks (machine [(15, 3)] 0) 0x8FF6 (fun t => t.getV 15 == 1) = true := by decide
/-- T56. -/
theorem test_subn : ticks (machine [(0, 5), (1, 3), (15, 1)] 0) 0x8017 (fun t => t.getV 0 == 0xFE && t.getV 15 == 0) = true := by decide
/-- T57. -/
theorem test_shl : ticks (machine [(2, 0x81)] 0) 0x820E (fun t => t.getV 2 == 2 && t.getV 15 == 1) = true := by decide
/-- T59: the old bit 7. -/
theorem test_shl_flag : ticks (machine [(15, 0x80)] 0) 0x8FFE (fun t => t.getV 15 == 1) = true := by decide
/-- T60, the draw being the byte the host supplied. -/
theorem test_rnd :
    ticks (hostSupplyRandom 0xA7 (machine [] 0)) 0xC30F (fun t => t.getV 3 == 7 && t.rndSupply == [] && t.rndDraws == 1) = true := by
  decide

/-! ## Index register and memory -/

/-- T81. -/
theorem test_ld_i : ticks (machine [] 0) 0xAFFF (fun t => t.i == 0xFFF) = true := by decide
/-- T84. -/
theorem test_add_i : ticks (machine [(1, 0xFF), (15, 9)] 0xFFF) 0xF11E (fun t => t.i == 0x0FE && t.getV 15 == 9) = true := by decide
/-- T86: the low nibble. -/
theorem test_ld_f : ticks (machine [(0, 0x1A)] 0) 0xF029 (fun t => t.i == 0x032) = true := by decide
/-- T89. -/
theorem test_ld_b : ticks (machine [(0, 0xFF)] 0xFFD) 0xF033 (fun t => bytesAt t 0xFFD 3 == [2, 5, 5]) = true := by decide
/-- T90: nothing is written. -/
theorem test_ld_b_fault :
    ticks (machine [(0, 0xFF)] 0xFFE) 0xF033
      (fun t => t.pc == 0x202 && bytesAt t 0xFFE 2 == [0, 0] && t.fault == some (.memFault 0x1000)) = true := by decide
/-- T92. -/
theorem test_st_regs :
    ticks (machine [(0, 0x11), (1, 0x22), (2, 0x33), (3, 0x44)] 0x400) 0xF255
      (fun t => bytesAt t 0x400 4 == [0x11, 0x22, 0x33, 0] && t.i == 0x400) = true := by decide
/-- T95. -/
theorem test_st_regs_fault :
    ticks (machine [(0, 0xA0)] 0xFF1) 0xFF55 (fun t => t.byteAt 0xFF1 == 0 && t.fault == some (.memFault 0x1000)) = true := by decide
/-- T93. -/
theorem test_ld_regs :
    ticks (withBytes 0x400 [0x11, 0x22, 0x33, 0x44] (machine [] 0x400)) 0xF265
      (fun t => t.getV 0 == 0x11 && t.getV 2 == 0x33 && t.getV 3 == 0 && t.i == 0x400) = true := by decide
/-- T97. -/
theorem test_ld_regs_fault : ticks (machine [(0, 7)] 0xFF1) 0xFF65 (fun t => t.getV 0 == 7 && t.fault == some (.memFault 0x1000)) = true := by decide

/-! ## Display -/

/-- T67 (R210): `VF` and draw-pending keep their values. -/
theorem test_cls :
    ticks { machine [(15, 1)] 0 with fb := Frame.setCell (Frame.setCell Frame.blank 0 true) 2047 true } 0x00E0
      (fun t => t.fb == Frame.blank && t.getV 15 == 1 && !t.drawPending) = true := by decide
set_option maxRecDepth 10000 in
/-- T5, T69: the glyph of digit 0; bit `c` of row `r` is the cell `(c, r)`. -/
theorem test_drw :
    ticks (withBytes 0 [0xF0, 0x90, 0x90, 0x90, 0xF0] (machine [] 0)) 0xD015
      (fun t => t.fb[0] == 0x0F && t.fb[1] == 0x09 && t.fb[3] == 0x09 && t.fb[4] == 0x0F && t.fb[5] == 0 && t.getV 15 == 0 &&
        t.drawPending) = true := by
  decide
set_option maxRecDepth 10000 in
/-- T71's first and last rows: wrapping on both axes, pixel by pixel; and T77's collision. -/
theorem test_drw_wrap :
    ticks (withBytes 0x300 [0xF0, 0x90, 0x90] { machine [(0, 62), (1, 30)] 0x300 with fb := Frame.setCell Frame.blank (30 * 64) true }) 0xD013
      (fun t => t.fb[30] == 0xC000000000000002 && t.fb[31] == 0x4000000000000002 && t.fb[0] == 0x4000000000000002 && t.fb[1] == 0 &&
        t.getV 15 == 1) = true := by decide

/-! ## Keypad and timers -/

/-- T102, T101. -/
theorem test_skp :
    (ticks (hostSetKey 7 true (machine [(0, 0x17)] 0)) 0xE09E (fun t => t.pc == 0x204) &&
      ticks (machine [(0, 7)] 0) 0xE09E (fun t => t.pc == 0x202)) = true := by decide
/-- T103, T104. -/
theorem test_sknp :
    (ticks (machine [(0, 7)] 0) 0xE0A1 (fun t => t.pc == 0x204) &&
      ticks (hostSetKey 7 true (machine [(0, 7)] 0)) 0xE0A1 (fun t => t.pc == 0x202)) = true := by decide
/-- T106: the lowest key held; the latch is not cleared. -/
theorem test_wait_key :
    ticks { machine [(0, 0xEE)] 0 with keys := 0x0208 } 0xF00A (fun t => t.getV 0 == 3 && t.pc == 0x202 && t.keys == 0x0208) = true := by decide
/-- T105: no key held, a full tick. -/
theorem test_wait_key_none :
    ticks { State.reset with dt := 5, st := 1 } 0xF00A (fun t => t.pc == 0x200 && t.dt == 4 && t.st == 0 && t.beepPending) = true := by decide
/-- T109: the value before the timer tick. -/
theorem test_ld_vx_dt : ticks { State.reset with dt := 0x10 } 0xF307 (fun t => t.getV 3 == 0x10 && t.dt == 0x0F) = true := by decide
/-- T110. -/
theorem test_ld_dt : ticks (machine [(3, 0x3C)] 0) 0xF315 (fun t => t.dt == 0x3B) = true := by decide
/-- T114, T115. -/
theorem test_ld_st :
    (ticks (machine [(0, 1)] 0) 0xF018 (fun t => t.st == 0 && t.beepPending) &&
      ticks { machine [] 0 with st := 5 } 0xF018 (fun t => t.st == 0 && !t.beepPending)) = true := by decide

/-! ## Tick and host operations -/

/-- T130: the timer tick runs on the faulting tick, and a halted tick changes nothing. -/
theorem test_fault_then_halted :
    ticks { State.reset with dt := 5, st := 1 } 0x0123 (fun t =>
      t.pc == 0x202 && t.dt == 4 && t.st == 0 && t.beepPending && tickStatus t == some (.unknownOpcode 0x0123) &&
        after (step t) (fun u => u == t)) = true := by decide
/-- T131: running off the end of memory, and T28's second tick. -/
theorem test_fetch_fault :
    (after (step { State.reset with pc := 0x1000, dt := 4 }) (fun t => t.pc == 0x1000 && t.dt == 3 && t.fault == some (.memFault 0x1000)) &&
      after (step { State.reset with pc := 0x10FE }) (fun t => t.pc == 0x10FE && t.fault == some (.memFault 0x10FE))) = true := by decide
/-- T12: a fetch from an odd address. -/
theorem test_odd_fetch :
    after (step { withBytes 0x200 [0x12, 0x01] State.reset with pc := 0x201 })
      (fun t => t.pc == 0x203 && t.fault == some (.unknownOpcode 0x0100)) = true := by decide
/-- T141: font and program. -/
theorem test_load :
    (match hostLoad defaultFont [0x12, 0x00] State.reset with
      | .loaded t => bytesAt t 0 5 == [0xF0, 0x90, 0x90, 0x90, 0xF0] && bytesAt t 0x4B 6 == [0xF0, 0x80, 0xF0, 0x80, 0x80, 0]
          && bytesAt t 0x1FF 4 == [0, 0x12, 0, 0] && t.used && t.pc == 0x200
      | .romTooLarge => false
      | .notAdmitted => false) = true := by decide
/-- T144, T145. -/
theorem test_load_on_used : hostLoad defaultFont [0x00, 0xE0] { State.reset with used := true } = .notAdmitted := by decide
/-- T148: the host clears beep-pending. -/
theorem test_clear_beep :
    hostStep defaultFont (.readBeep true) { State.reset with beepPending := true } = .next (State.reset, .flag true) := by rfl
/-- R281: the numbers of the statuses. -/
theorem test_status_codes :
    statusCode none = 0 ∧ statusCode (some (.unknownOpcode 0x0123)) = 1 ∧ statusCode (some (.memFault 0x1000)) = 2 ∧
      statusCode (some .stackOverflow) = 3 ∧ statusCode (some .stackUnderflow) = 4 := by decide

/-! ## Witnesses: each obligation's hypotheses are met together, at the boundary of each clause -/

/-- A halted machine. -/
def halted : State := { State.reset with fault := some .stackUnderflow, used := true, drawPending := true, beepPending := true }

/-- A machine about to run the bytes given at `pc`. -/
def runningAt (pc : Word) (bytes : List Byte) : State := withBytes pc.toNat bytes { State.reset with pc := pc }

theorem witness_decode_some : decode 0xFF65 = some (.ldRegs 0xF) := by decide
theorem witness_decode_none : decode 0xFFFF = none := by decide
theorem witness_row_selects : (opcodeTable.any fun r => r.selects 0x8006) = true := by decide
/-- StepRunsTheDecodedInstruction, UnknownWordFaults, WaitingForAKeyIsAFullTick at the last address fetched from. -/
theorem witness_step :
    Running (runningAt 0xFFE []) ∧ (runningAt 0xFFE []).pc.toNat ≤ 0xFFE ∧
      decode ((runningAt 0xFFE []).wordAt (runningAt 0xFFE []).pc.toNat) = some .nop ∧
      ∃ t, exec .nop { runningAt 0xFFE [] with used := true, pc := (runningAt 0xFFE []).pc + 2 } = .next t := by
  exact ⟨rfl, by decide, by decide, _, rfl⟩
theorem witness_halted : halted.fault = some .stackUnderflow := by decide
theorem witness_fetch_edges :
    Running (runningAt 0xFFE []) ∧ (runningAt 0xFFE []).pc.toNat ≤ 0xFFE ∧
      Running (runningAt 0xFFF []) ∧ 0xFFE < (runningAt 0xFFF []).pc.toNat := ⟨rfl, by decide, rfl, by decide⟩
theorem witness_unknown_word :
    Running (runningAt 0xFFE [0x51, 0x21]) ∧ (runningAt 0xFFE [0x51, 0x21]).pc.toNat ≤ 0xFFE ∧
      (opcodeTable.all fun r => !r.selects ((runningAt 0xFFE [0x51, 0x21]).wordAt 0xFFE)) = true :=
  ⟨rfl, by decide, by decide⟩
theorem witness_delay_timer :
    Running (runningAt 0xFFC [0xF3, 0x15, 0xF4, 0x07]) ∧ (runningAt 0xFFC [0xF3, 0x15, 0xF4, 0x07]).pc.toNat ≤ 0xFFC ∧
      decode ((runningAt 0xFFC [0xF3, 0x15, 0xF4, 0x07]).wordAt 0xFFC) = some (.ldDTVx 3) ∧
      decode ((runningAt 0xFFC [0xF3, 0x15, 0xF4, 0x07]).wordAt 0xFFE) = some (.ldVxDT 4) :=
  ⟨rfl, by decide, by decide, by decide⟩
theorem witness_waiting :
    Running (runningAt 0xFFE [0xF3, 0x0A]) ∧ (runningAt 0xFFE [0xF3, 0x0A]).pc.toNat ≤ 0xFFE ∧
      decode ((runningAt 0xFFE [0xF3, 0x0A]).wordAt 0xFFE) = some (.ldVxK 3) ∧
      ∀ k, (runningAt 0xFFE [0xF3, 0x0A]).keyHeld k = false := ⟨rfl, by decide, by decide, by decide⟩
/-- EveryStepKeepsTheInvariant, with memory listed, a full stack and `pc` at its largest value. -/
theorem witness_invariant :
    StateInv { runningAt 0x10FE [] with mem := [(0xFFF, 1)], stack := Vector.replicate 16 0x1000, sp := 16 } ∧
      ∃ t, step { runningAt 0x10FE [] with mem := [(0xFFF, 1)], stack := Vector.replicate 16 0x1000, sp := 16 } = .next t := by
  refine ⟨?_, _, rfl⟩
  unfold StateInv
  decide
theorem witness_latches :
    halted.used = true ∧ halted.drawPending = true ∧ halted.beepPending = true ∧ halted.fault = some .stackUnderflow ∧
      Running State.reset := ⟨rfl, rfl, rfl, rfl, rfl⟩
/-- FaultingTickIsPrecise: a fetch fault and a fault raised after the advance. -/
theorem witness_faulting_ticks :
    (∃ t, Running (runningAt 0xFFF []) ∧ step (runningAt 0xFFF []) = .next t ∧ t.fault = some (.memFault 0x1000)) ∧
    ∃ t, Running (runningAt 0x200 [0x00, 0xEE]) ∧ step (runningAt 0x200 [0x00, 0xEE]) = .next t ∧
      t.fault = some .stackUnderflow := ⟨⟨_, rfl, rfl, by decide⟩, ⟨_, rfl, rfl, by decide⟩⟩
/-- EachStateHasOnlyItsWriters: every premise is met by some instruction. -/
theorem witness_writers :
    (after (exec (.ldB 0) (machine [(0, 1)] 0)) (fun t => t.mem != []) &&
      after (exec .cls { State.reset with fb := Frame.setCell Frame.blank 0 true }) (fun t => t.fb == Frame.blank) &&
      after (exec (.ldI 1) State.reset) (fun t => t.i != 0) &&
      after (exec (.call 0x300) State.reset) (fun t => t.stack != State.reset.stack && t.sp != 0) &&
      after (exec .ret { State.reset with sp := 1 }) (fun t => t.sp != 1) &&
      after (exec (.ldDTVx 0) (machine [(0, 1)] 0)) (fun t => t.dt != 0) &&
      after (exec (.ldSTVx 0) (machine [(0, 1)] 0)) (fun t => t.st != 0) &&
      after (exec (.drw 0 0 0) State.reset) (fun t => t.drawPending)) = true := by decide
/-- FlagRegisterRule: a flag instruction that does not fault; a register that changes, an ordinary one and `VF`. -/
theorem witness_flag_rule :
    writesFlag (.addReg 0 1) = true ∧ Running State.reset ∧
      after (exec (.addReg 0 1) (machine [(0, 0xFF), (1, 1)] 0)) (fun t => t.fault == none && t.getV 0 != 0xFF && t.getV 15 != 0) = true :=
  ⟨rfl, rfl, by decide⟩
theorem witness_not_rnd : ∀ x kk, Instr.drw 0 1 15 ≠ .rnd x kk := by intro x kk h; cases h
theorem witness_one_byte :
    Memory.wf [(0xFFF, (1 : Byte))] = true ∧ 0xFFF ≤ 0xFFF ∧ 0xFFF < 0x1000 ∧ 0x1000 ≤ 0x10FF ∧ 0xFFF < 0x10FF := by decide
theorem witness_store_seen_by_fetch :
    Memory.wf (machine [] 0xFF0).mem = true ∧ (machine [] 0xFF0).base + (15 : Reg).val ≤ 0xFFF ∧
      (15 : Reg).val ≤ (15 : Reg).val ∧ (15 : Reg).val = (14 : Reg).val + 1 := by decide
/-- The register clauses of the flag instructions. -/
theorem witness_not_flag : (14 : Reg) ≠ flagReg ∧ (0 : Reg) ≠ flagReg := by decide
theorem witness_random :
    (hostSupplyRandom 0xA7 State.reset).rndSupply = 0xA7 :: [] ∧ State.reset.rndSupply = [] := ⟨rfl, rfl⟩
theorem witness_call_edges : ({ State.reset with sp := 15 } : State).sp.val < 16 ∧ ({ State.reset with sp := 16 } : State).sp.val = 16 := by
  decide
theorem witness_ret_edges :
    ({ State.reset with sp := 16 } : State).sp.val = (15 : Fin 16).val + 1 ∧
      ({ State.reset with sp := 1 } : State).sp.val = (0 : Fin 16).val + 1 ∧ State.reset.sp.val = 0 := by decide
/-- RetReturnsAfterTheCall: the state the call left meets the premises on the state the return starts in. -/
theorem witness_call_then_ret :
    ({ State.reset with sp := 15 } : State).sp.val < 16 ∧ ∃ t, exec (.call 0x300) { State.reset with sp := 15 } = .next t ∧
      ∃ u : State, u.sp = t.sp ∧ ∀ k : Fin 16, k.val = 15 → u.stack.get k = t.stack.get k :=
  ⟨by decide, _, rfl, _, rfl, fun _ _ => rfl⟩
theorem witness_bcd_edges :
    Memory.wf (machine [] 0xFFD).mem = true ∧ (machine [] 0xFFD).i.toNat + 2 ≤ 0xFFF ∧
      Memory.wf (machine [] 0xFFE).mem = true ∧ 0xFFF < (machine [] 0xFFE).i.toNat + 2 := by decide
/-- StoreRegisters, LoadRegisters, StoreThenLoadIsIdentity. -/
theorem witness_transfer_edges :
    Memory.wf (machine [] 0xFF0).mem = true ∧ (machine [] 0xFF0).i.toNat + (15 : Reg).val ≤ 0xFFF ∧
      0xFFF < (machine [] 0xFF1).i.toNat + (15 : Reg).val ∧ Memory.wf (machine [] 0xFF1).mem = true := by decide
theorem witness_sprite_edges :
    (0 : Fin 16).val = 0 ∧ (machine [] 0xFFF).i.toNat + (1 : Fin 16).val - 1 ≤ 0xFFF ∧
      0 < (2 : Fin 16).val ∧ 0xFFF < (machine [] 0xFFF).i.toNat + (2 : Fin 16).val - 1 := by decide
/-- DrawTwiceRestores: ordinary registers, and `VF` as both coordinates. -/
theorem witness_draw_twice :
    (machine [(0, 3), (1, 4)] 0xFF1).i.toNat + (15 : Fin 16).val - 1 ≤ 0xFFF ∧
      after (exec (.drw 0 1 15) (machine [(0, 3), (1, 4)] 0xFF1)) (fun t => t.getV 0 == 3 && t.getV 1 == 4) = true ∧
      after (exec (.drw 15 15 0) (machine [] 0xFF1)) (fun t => t.getV 15 == 0) = true := by decide
theorem witness_positions : 14 < 15 ∧ 7 < 8 ∧ pixelCell 63 31 14 7 = pixelCell 63 31 14 7 := by decide
theorem witness_key_nibble : (7 : Reg).val = ((machine [(0, 0x17)] 0).getV 0).toNat % 16 := by decide
theorem witness_wait_for_key :
    ({ State.reset with keys := 0x8000 } : State).keyHeld 15 = true ∧
      (∀ j, j < 15 → ({ State.reset with keys := 0x8000 } : State).keyHeld j = false) ∧ ∀ k, State.reset.keyHeld k = false := by
  decide
/-- LoadInstallsFontAndProgram, ExecutionStartsAtTheProgram: the largest program, and the smallest. -/
theorem witness_load :
    Memory.wf State.reset.mem = true ∧ State.reset.used = false ∧ defaultFont.length = 80 ∧
      (List.replicate 3584 (0xAB : Byte)).length ≤ 3584 ∧ 2 ≤ ([0x12, 0x00] : List Byte).length ∧ ([] : List Byte).length ≤ 3584 := by
  refine ⟨by decide, by decide, by decide, ?_, by decide, by decide⟩
  rw [List.length_replicate]
theorem witness_load_refusals :
    State.reset.used = false ∧ 3584 < (List.replicate 3585 (0 : Byte)).length ∧ halted.used = true := by
  refine ⟨by decide, ?_, by decide⟩
  rw [List.length_replicate]
  decide
theorem witness_frame_view : 31 < 32 ∧ 63 < 64 ∧ 31 * 64 + 63 = 2047 := by decide

end Sys2Proof.Tests
end

section
/-! PROOFS. The closed world of the execute phase: which instruction writes which piece of state (spec/10_state.md R20,
spec/00_scope.md R16). -/

namespace Sys2Proof.Machine

/-- Settles O18: the state an instruction leaves is built from named operations, and the `State` laws of those operations
say which pieces each one keeps. The instructions are taken in three groups: two outcomes, one named write, no named
write. -/
theorem eachStateHasOnlyItsWriters : Obligations.EachStateHasOnlyItsWriters := by
  intro i s t h
  obtain rfl := eq_afterExec h
  cases i
  case ret | call | drw | ldB | stRegs | ldRegs | ldVxK =>
    -- a fault writes only `FAULT`, and a wait for a key only `pc`; the other outcome is the instruction's own write
    simp only [afterExec]
    split <;> simp
  case cls | ldI | addI | ldF | ldDTVx | ldSTVx => simp [afterExec]
  -- the others write only `V`, `pc` and the random input
  all_goals simp [afterExec]

end Sys2Proof.Machine
end

section
/-! PROOFS. The invariants of the state (spec/10_state.md): what reset leaves, what every step keeps, which latches are
never taken back, and who reads the random input. Which instruction writes which piece of state is
`eachStateHasOnlyItsWriters`; here only the writers of a piece are looked at. -/

namespace Sys2Proof.Machine

/-! ## Reset -/

/-- The reset state meets the invariant (R46). -/
theorem reset_inv : StateInv State.reset :=
  ⟨rfl, by decide, by decide, fun h => absurd rfl h⟩

/-- Settles O14: the invariant does not speak of the random input, the only thing the host's reset keeps. -/
theorem resetMeetsTheInvariant : Obligations.ResetMeetsTheInvariant := ⟨reset_inv, fun _ => reset_inv⟩

/-- Settles O47: the values of R46, field by field; the registers, the stack, the framebuffer and the key latch element by
element. -/
theorem resetValues : Obligations.ResetValues := by
  intro font s
  have hV : ∀ r, (hostReset s).getV r = 0 := by
    simp [hostReset, State.reset, State.getV, Vector.get_eq_getElem]
  have hStack : ∀ k, (hostReset s).stack.get k = 0 := by
    simp [hostReset, State.reset, Vector.get_eq_getElem]
  have hKey : ∀ k, (hostReset s).keyHeld k = false := by
    simp [hostReset, State.reset, State.keyHeld]
  exact ⟨hostReset s, rfl, fun _ => rfl, hV, rfl, rfl, hStack, rfl, rfl, rfl, fun k _ => Frame.cell_blank k, hKey,
    rfl, rfl, rfl, rfl⟩

/-! ## What an execute phase does to the parts of the invariant -/

section Execute
variable {i : Instr} {s t : State}

/-- An execute phase keeps memory canonical: its two writers check their range first (R70). -/
theorem exec_keeps_wf (h : exec i s = .next t) (hw : Memory.wf s.mem = true) : Memory.wf t.mem = true := by
  obtain ⟨hmem, -⟩ := eachStateHasOnlyItsWriters i s t h
  by_cases hm : t.mem = s.mem
  · rwa [hm]
  obtain rfl := eq_afterExec h
  obtain ⟨x, rfl | rfl⟩ := hmem hm <;> simp only [afterExec] <;> split
  · exact hw
  · exact Memory.wf_writeBytes hw (by simp only [bcdDigits, List.length_cons, List.length_nil]; omega)
  · exact hw
  · exact Memory.wf_writeBytes hw (by rw [State.length_lowVs]; omega)

/-- A stack slot after an execute phase holds its old value or the `pc` a CALL pushed (R143). -/
theorem exec_stack_cases (h : exec i s = .next t) (k : Fin 16) :
    t.stack.get k = s.stack.get k ∨ t.stack.get k = s.pc := by
  obtain ⟨-, -, -, hstack, -⟩ := eachStateHasOnlyItsWriters i s t h
  by_cases hs : t.stack = s.stack
  · exact .inl (by rw [hs])
  obtain rfl := eq_afterExec h
  obtain ⟨nnn, rfl⟩ := hstack hs
  simp only [afterExec]
  split
  · simp only [Vector.get_eq_getElem, Vector.getElem_set]
    split <;> simp
  · exact .inl rfl

/-- A conditional skip leaves `pc` or adds 2 to it (R144). -/
theorem skipIf_pc_cases (c : Bool) (s : State) : (skipIf c s).pc = s.pc ∨ (skipIf c s).pc = s.pc + 2#16 := by
  cases c
  · exact .inl rfl
  · exact .inr rfl

/-- Where an execute phase can leave `pc`: where it was, one instruction on (a skip) or back (a wait for a key), at a jump
target, or at a return address. -/
theorem exec_pc_cases (h : exec i s = .next t) :
    (t.pc = s.pc ∨ t.pc = s.pc + 2#16) ∨ t.pc = s.pc - 2#16 ∨ (∃ nnn, t.pc = jumpTarget nnn) ∨
      (∃ nnn b, t.pc = offsetTarget nnn b) ∨ ∃ k, t.pc = s.stack.get k := by
  obtain rfl := eq_afterExec h
  cases i
  case seImm | sneImm | seReg | sneReg | skp | sknp => exact .inl (skipIf_pc_cases _ s)
  case ldVxK =>
    simp only [afterExec]
    split
    · exact .inl (.inl rfl)
    · exact .inr (.inl rfl)
  case jp nnn => exact .inr (.inr (.inl ⟨nnn, rfl⟩))
  case call nnn =>
    simp only [afterExec]
    split
    · exact .inr (.inr (.inl ⟨nnn, rfl⟩))
    · exact .inl (.inl rfl)
  case jpV0 nnn => exact .inr (.inr (.inr (.inl ⟨nnn, _, rfl⟩)))
  case ret =>
    simp only [afterExec]
    split
    · exact .inr (.inr (.inr (.inr ⟨⟨s.sp.val - 1, by omega⟩, rfl⟩)))
    · exact .inl (.inl rfl)
  case drw | ldB | stRegs | ldRegs =>
    simp only [afterExec]
    split <;> exact .inl (.inl rfl)
  -- the others do not write `pc`
  all_goals exact .inl (.inl rfl)

/-- `JP` and `CALL` reach at most `0xFFF` (R142, R143). -/
theorem jumpTarget_le (nnn : Addr) : (jumpTarget nnn).toNat ≤ 0xFFF := by
  rw [jumpTarget, BitVec.toNat_setWidth]
  omega

/-- `JP V0` reaches at most `0xFFF + 0xFF` (R148). -/
theorem offsetTarget_le (nnn : Addr) (b : Byte) : (offsetTarget nnn b).toNat ≤ 0x10FE := by
  rw [offsetTarget, BitVec.toNat_add, BitVec.toNat_setWidth, BitVec.toNat_setWidth]
  omega

/-- From a post-fetch `pc` and stack slots that are post-fetch addresses, no instruction takes `pc` past `0x10FE` (R24). -/
theorem exec_pc_le (h : exec i s = .next t) (hlo : 2 ≤ s.pc.toNat) (hhi : s.pc.toNat ≤ 0x1000)
    (hstack : ∀ k : Fin 16, (s.stack.get k).toNat ≤ 0x1000) : t.pc.toNat ≤ 0x10FE := by
  obtain (hpc | hpc) | hpc | ⟨nnn, hpc⟩ | ⟨nnn, b, hpc⟩ | ⟨k, hpc⟩ := exec_pc_cases h <;> rw [hpc]
  · omega
  · rw [BitVec.toNat_add]
    simp only [BitVec.toNat_ofNat]
    omega
  · rw [BitVec.toNat_sub_of_le (by rw [BitVec.le_def]; exact hlo)]
    omega
  · exact (jumpTarget_le nnn).trans (by decide)
  · exact offsetTarget_le nnn b
  · exact (hstack k).trans (by decide)

/-- No instruction writes `KEY`, `BEEP_PENDING` or `USED` (R33, R37, R39). -/
theorem exec_keeps_hostLatches (h : exec i s = .next t) :
    t.keys = s.keys ∧ t.beepPending = s.beepPending ∧ t.used = s.used := by
  obtain ⟨-, -, -, -, -, -, -, -, hlatches⟩ := eachStateHasOnlyItsWriters i s t h
  exact hlatches

/-- An execute phase that starts used, from a post-fetch `pc`, with canonical memory and stack slots in bounds, ends in the
invariant. -/
theorem exec_establishes_inv (h : exec i s = .next t) (hmem : Memory.wf s.mem = true) (hlo : 2 ≤ s.pc.toNat)
    (hhi : s.pc.toNat ≤ 0x1000) (hstack : ∀ k : Fin 16, (s.stack.get k).toNat ≤ 0x1000) (hused : s.used = true) :
    StateInv t := by
  obtain ⟨-, -, hkeep⟩ := exec_keeps_hostLatches h
  refine ⟨exec_keeps_wf h hmem, exec_pc_le h hlo hhi hstack, fun k => ?_, fun _ => hkeep.trans hused⟩
  obtain hk | hk := exec_stack_cases h k <;> rw [hk]
  · exact hstack k
  · exact hhi

end Execute

/-- Settles O13: a halted step and the two faults before the execute phase leave memory and the stack alone; an
instruction starts with `pc` between 2 and `0x1000` and `USED` set, and the timer tick touches no part of the invariant. -/
theorem everyStepKeepsTheInvariant : Obligations.EveryStepKeepsTheInvariant := by
  rintro s t ⟨hmem, hpc, hstack, hused⟩ h
  have hadv (hle : s.pc.toNat ≤ 0xFFE) : s.markUsed.advance.pc.toNat = s.pc.toNat + 2 := by
    simp only [State.advance_pc, State.markUsed_pc]
    bv_omega
  obtain ⟨f, hf, rfl⟩ | ⟨-, -, rfl⟩ | ⟨-, hle, -, rfl⟩ | ⟨i, u, -, hle, -, hu, rfl⟩ := step_cases h
  · exact ⟨hmem, hpc, hstack, hused⟩
  · exact ⟨hmem, hpc, hstack, fun _ => rfl⟩
  · exact ⟨hmem, (hadv hle).trans_le (by omega), hstack, fun _ => rfl⟩
  · have hpost := hadv hle
    have hinv : StateInv u := exec_establishes_inv hu hmem (by omega) (by omega) hstack rfl
    exact hinv

/-! ## Latches -/

/-- Every step answers a next state (R120, R125). -/
theorem exists_step (s : State) : ∃ t, step s = .next t := by
  rw [step_eq]
  split
  · exact ⟨_, rfl⟩
  split
  · exact ⟨_, rfl⟩
  split
  · exact ⟨_, rfl⟩
  · exact ⟨_, by rw [exec_eq]; rfl⟩

/-- No instruction clears `DRAW_PENDING`: its only writer sets it (R32, R216). -/
theorem exec_keeps_drawPending {i : Instr} {s t : State} (h : exec i s = .next t) (hd : s.drawPending = true) :
    t.drawPending = true := by
  obtain ⟨-, -, -, -, -, -, -, hdraw, -⟩ := eachStateHasOnlyItsWriters i s t h
  by_cases hs : t.drawPending = s.drawPending
  · rwa [hs]
  obtain rfl := eq_afterExec h
  obtain ⟨x, y, n, rfl⟩ := hdraw hs
  simp only [afterExec]
  split
  · exact hd
  · rfl

/-- A recorded fault halts the core (R38). -/
theorem not_running_of_fault {s : State} {f : Fault} (hf : s.fault = some f) : ¬ Running s := by
  simp [Running, hf]

/-- The timer tick never clears `BEEP_PENDING` (R33, R126). -/
theorem timerTick_keeps_beepPending (s : State) (hb : s.beepPending = true) : s.timerTick.beepPending = true := by
  simp [hb]

/-- Settles O15: a halted step changes nothing, a running one sets `USED` before it fetches, the execute phase writes none
of these latches but `DRAW_PENDING`, and the timer tick can only set `BEEP_PENDING`. -/
theorem ticksKeepHostStateAndLatches : Obligations.TicksKeepHostStateAndLatches := by
  intro s
  obtain ⟨t, h⟩ := exists_step s
  refine ⟨t, h, ?_⟩
  obtain ⟨f, hf, rfl⟩ | ⟨hr, -, rfl⟩ | ⟨hr, -, -, rfl⟩ | ⟨i, u, hr, -, -, hu, rfl⟩ := step_cases h
  · exact ⟨rfl, id, fun hr => absurd hr (not_running_of_fault hf), id, id, fun _ => id⟩
  · exact ⟨rfl, fun _ => rfl, fun _ => rfl, id, timerTick_keeps_beepPending (s.markUsed.raise _),
      fun f hf => absurd hr (not_running_of_fault hf)⟩
  · exact ⟨rfl, fun _ => rfl, fun _ => rfl, id, timerTick_keeps_beepPending (s.markUsed.advance.raise _),
      fun f hf => absurd hr (not_running_of_fault hf)⟩
  · obtain ⟨hkeys, hbeep, hused⟩ := exec_keeps_hostLatches hu
    have hdraw (hd : s.drawPending = true) : u.drawPending = true := exec_keeps_drawPending hu hd
    exact ⟨hkeys, fun _ => hused, fun _ => hused, hdraw, fun hb => timerTick_keeps_beepPending u (hbeep.trans hb),
      fun f hf => absurd hr (not_running_of_fault hf)⟩

/-! ## The random input -/

/-- The state with another random input (R45): another supply, another number of draws. -/
def State.withRandom (s : State) (l : List Byte) (n : Nat) : State := { s with rndSupply := l, rndDraws := n }

/-- Every instruction but `Cxkk` commutes with replacing the random input: it neither reads nor writes it. -/
theorem afterExec_withRandom {i : Instr} (hi : ∀ x kk, i ≠ .rnd x kk) (s : State) (l : List Byte) (n : Nat) :
    afterExec i (s.withRandom l n) = (afterExec i s).withRandom l n := by
  cases i
  case rnd x kk => exact absurd rfl (hi x kk)
  -- one condition, which does not look at the random input: each branch commutes
  case seImm | sneImm | seReg | sneReg | skp | sknp | drw | ldB | stRegs | ldRegs =>
    simp only [afterExec, skipIf, apply_ite (State.withRandom · l n)]
    rfl
  case ret | call =>
    simp only [afterExec, apply_dite (State.withRandom · l n)]
    rfl
  case ldVxK =>
    have hkey : (s.withRandom l n).lowestKey = s.lowestKey := rfl
    simp only [afterExec, hkey]
    cases s.lowestKey <;> rfl
  all_goals rfl

/-- Settles O20: replacing the random input before the instruction is replacing it after; for the input the machine holds
already, this says that it is not consumed. -/
theorem onlyRndReadsTheRandomInput : Obligations.OnlyRndReadsTheRandomInput := by
  intro i hi s l n
  have hsame : afterExec i s = (afterExec i s).withRandom s.rndSupply s.rndDraws :=
    afterExec_withRandom hi s s.rndSupply s.rndDraws
  have hsupply : (afterExec i s).rndSupply = s.rndSupply := by rw [hsame]; rfl
  have hdraws : (afterExec i s).rndDraws = s.rndDraws := by rw [hsame]; rfl
  exact ⟨afterExec i s, exec_eq i s, hsupply, hdraws, (exec_eq i _).trans (congrArg _ (afterExec_withRandom hi s l n))⟩

end Sys2Proof.Machine
end

section
/-! PROOFS. Memory accesses (spec/20_memory.md): an access in range and one above `0xFFF`, and a store that the next
instruction fetch sees. -/

namespace Sys2Proof.Machine

/-! ## The range check -/

/-- An access that ends at `0xFFF` or below passes the range check. -/
theorem rangeFault_in_range {base len : Nat} (hr : base + len ≤ 4096) : rangeFault base len = none := by
  rcases rangeFault_cases base len with ⟨hlen, habove, -⟩ | ⟨-, hok⟩
  · omega
  · exact hok

/-- An access that starts above `0xFFF` faults at its own first address. -/
theorem rangeFault_above {base len : Nat} (hlen : 0 < len) (hbase : 0xFFF < base) :
    rangeFault base len = some (.memFault (BitVec.ofNat 16 base)) := by
  rcases rangeFault_cases base len with ⟨-, -, hfault⟩ | ⟨hin, -⟩
  · rwa [max_eq_left (show 0x1000 ≤ base by omega)] at hfault
  · omega

/-! ## Reads and stores -/

theorem readBytes_in_range (s : State) {base len : Nat} (hr : base + len ≤ 4096) :
    readBytes s base len = .ok (Memory.readBytes s.mem base len) := by
  rw [readBytes_eq, rangeFault_in_range hr]

theorem readBytes_above (s : State) {base len : Nat} (hlen : 0 < len) (hbase : 0xFFF < base) :
    readBytes s base len = .error (.memFault (BitVec.ofNat 16 base)) := by
  rw [readBytes_eq, rangeFault_above hlen hbase]

/-- A store in range into canonical memory: the bytes stand at their addresses, only memory changes and of it only those
addresses, and memory stays canonical (R63). -/
theorem writeBytes_in_range {s : State} {base : Nat} {bytes : List Byte} (hw : Memory.wf s.mem = true)
    (hr : base + bytes.length ≤ 4096) :
    ∃ t, writeBytes s base bytes = .ok t ∧ (∀ j (hj : j < bytes.length), t.byteAt (base + j) = bytes[j]) ∧
      OnlyMemory base bytes.length s t ∧ Memory.wf t.mem = true := by
  have hwrite : writeBytes s base bytes = .ok (s.setMem (Memory.writeBytes s.mem base bytes)) := by
    rw [writeBytes, rangeFault_in_range hr]
  obtain ⟨-, honly, hcanonical⟩ := writeBytes_ok hwrite
  obtain ⟨hwf, hbytes⟩ := hcanonical hw (by omega)
  exact ⟨_, hwrite, hbytes, honly, hwf⟩

theorem writeBytes_above (s : State) {base : Nat} {bytes : List Byte} (hlen : 0 < bytes.length) (hbase : 0xFFF < base) :
    writeBytes s base bytes = .error (.memFault (BitVec.ofNat 16 base)) := by
  rw [writeBytes, rangeFault_above hlen hbase]

/-- Settles O22: a one-byte access is in range up to `0xFFF`, and above it faults at its own address. -/
theorem oneByteAccesses : Obligations.OneByteAccesses := by
  intro s a v hw
  refine ⟨fun ha => ⟨readBytes_in_range s (by omega), ?_⟩,
    fun ha _ => ⟨readBytes_above s Nat.one_pos ha, writeBytes_above s Nat.one_pos ha⟩⟩
  obtain ⟨t, hwrite, hbytes, honly, hwf⟩ := writeBytes_in_range (base := a) (bytes := [v]) hw (Nat.succ_le_succ ha)
  exact ⟨t, hwrite, hbytes 0 Nat.one_pos, honly, hwf⟩

/-! ## A store and the next fetch -/

/-- `Fx55` in range: `V[j]` stands at `I + j` for every `j` up to `x`, only those bytes of memory change, and memory stays
canonical (R194). -/
theorem exec_stRegs_in_range {s : State} {x : Reg} (hw : Memory.wf s.mem = true) (hr : s.base + x.val ≤ 0xFFF) :
    ∃ t, exec (.stRegs x) s = .next t ∧ (∀ j : Reg, j.val ≤ x.val → t.byteAt (s.base + j.val) = s.getV j) ∧
      OnlyMemory s.base (x.val + 1) s t ∧ Memory.wf t.mem = true := by
  obtain ⟨t, hwrite, hbytes, honly, hwf⟩ :=
    writeBytes_in_range (base := s.base) (bytes := s.lowVs x) hw (by rw [State.length_lowVs]; omega)
  rw [State.length_lowVs] at honly
  have hexec : exec (.stRegs x) s = .next t := congrArg (orRaise s) hwrite
  refine ⟨t, hexec, fun j hj => ?_, honly, hwf⟩
  have hlen : j.val < (s.lowVs x).length := by rw [State.length_lowVs]; omega
  rw [hbytes j.val hlen, State.getElem_lowVs s x hlen]

/-- A fetch at an address up to `0xFFE` reads the word there (R121). -/
theorem fetchWord_setPc (s : State) {a : Nat} (ha : a ≤ 0xFFE) :
    fetchWord (s.setPc (BitVec.ofNat 16 a)) = .ok (s.wordAt a) := by
  have hpc : (s.setPc (BitVec.ofNat 16 a)).pc.toNat = a := by
    rw [State.setPc_pc, BitVec.toNat_ofNat]
    omega
  rcases fetchWord_cases (s.setPc (BitVec.ofNat 16 a)) with ⟨-, hfetch⟩ | ⟨habove, -⟩
  · rw [hfetch, hpc]
    rfl
  · omega

/-- Settles O23: the word at `I + j` after the store is `V[j]` and `V[j+1]`, and a fetch reads the word that stands in
memory (R75). -/
theorem storesAreSeenByFetch : Obligations.StoresAreSeenByFetch := by
  intro s x j k hw hr hkx hkj
  obtain ⟨t, hexec, hstored, -, -⟩ := exec_stRegs_in_range hw hr
  have hj : t.byteAt (s.base + j.val) = s.getV j := hstored j (by omega)
  have hk : t.byteAt (s.base + j.val + 1) = s.getV k := by
    rw [Nat.add_assoc, ← hkj]
    exact hstored k hkx
  refine ⟨t, hexec, ?_⟩
  rw [fetchWord_setPc t (by omega), State.wordAt, hj, hk]

end Sys2Proof.Machine
end

section
/-! PROOFS. The encoding (spec/30_encoding.md): `decode` and `encode` are inverse to each other, and `decode` is the opcode
table of R96. The decoder is taken family by family (R94), the encoder format by format (R92). -/

namespace Sys2Proof

/-! ## The families whose sub-opcode is one field (R94) -/

theorem famOf_lt (op : Word) : famOf op < 16 := (op.extractLsb' 12 4).isLt

theorem decode_eq_decodeAlu {op : Word} (h : famOf op = 0x8) : decode op = decodeAlu op := by simp [decode, h]

theorem decode_eq_decodeKey {op : Word} (h : famOf op = 0xE) : decode op = decodeKey op := by simp [decode, h]

theorem decode_eq_decodeMisc {op : Word} (h : famOf op = 0xF) : decode op = decodeMisc op := by simp [decode, h]

/-! ## Decoding an encoded instruction -/

/-- The families with a sub-opcode read it from the field that the encoder fixed; in the others the family alone selects,
and the fields are the operands. -/
theorem decode_encode (i : Instr) : decode (encode i) = some i := by
  cases i
  case nop | cls | ret => rfl
  case ldReg | orReg | andReg | xorReg | addReg | sub | shr | subn | shl =>
    simp [encode, decode_eq_decodeAlu, decodeAlu]
  case skp | sknp => simp [encode, decode_eq_decodeKey, decodeKey]
  case ldVxDT | ldVxK | ldDTVx | ldSTVx | addI | ldF | ldB | stRegs | ldRegs =>
    simp [encode, decode_eq_decodeMisc, decodeMisc]
  all_goals simp [encode, decode]

/-- The two bytes of a word that decodes are its instruction, and the bytes after them are left (R65, R90). -/
theorem decodeBytes_of_decode {op : Word} {i : Instr} (h : decode op = some i) (rest : List Byte) :
    decodeBytes (highByte op :: lowByte op :: rest) = .ok (i, rest) := by
  simp [decodeBytes, h]

/-- Settles O1: every field of an encoded word is the operand it was made from, and the two bytes make the word again. -/
theorem decodeInvertsEncode : Obligations.DecodeInvertsEncode :=
  fun i rest => ⟨decode_encode i, decodeBytes_of_decode (decode_encode i) rest⟩

/-! ## Encoding a decoded word -/

/-- A word is its family, its `x`, its `y` and a low nibble of known value (format `RR`). -/
theorem encodeRRN_of_nOf {op : Word} {fam : BitVec 4} {n : Fin 16} (hf : famOf op = fam.toNat)
    (hn : (nOf op).val = n.val) : encodeRRN fam (xOf op) (yOf op) n = op := by
  rw [← Fin.ext hn, encodeRRN_fields hf]

/-- A word is its family, its `x` and a low byte of known value (format `R`). -/
theorem encodeRI_of_kkOf {op : Word} {fam : BitVec 4} {kk : Byte} (hf : famOf op = fam.toNat)
    (hk : (kkOf op).toNat = kk.toNat) : encodeRI fam (xOf op) kk = op := by
  rw [← BitVec.eq_of_toNat_eq hk, encodeRI_fields hf]

/-- A word is its family and its address field. -/
theorem eq_of_nnnOf {op op' : Word} (hf : famOf op = famOf op') (hn : (nnnOf op).toNat = (nnnOf op').toNat) :
    op = op' := by
  rw [← encodeA_fields (op := op) (fam := op.extractLsb' 12 4) rfl, BitVec.eq_of_toNat_eq hn, encodeA_fields hf.symm]

theorem encode_of_decodeSystem {op : Word} {i : Instr} (hf : famOf op = 0x0) (h : decodeSystem op = some i) :
    encode i = op := by
  unfold decodeSystem at h
  split at h <;> cases h
  all_goals exact (eq_of_nnnOf hf ‹_›).symm

theorem encode_of_decodeAlu {op : Word} {i : Instr} (hf : famOf op = 0x8) (h : decodeAlu op = some i) :
    encode i = op := by
  unfold decodeAlu at h
  split at h <;> cases h
  all_goals exact encodeRRN_of_nOf hf ‹_›

theorem encode_of_decodeKey {op : Word} {i : Instr} (hf : famOf op = 0xE) (h : decodeKey op = some i) :
    encode i = op := by
  unfold decodeKey at h
  split at h <;> cases h
  all_goals exact encodeRI_of_kkOf hf ‹_›

theorem encode_of_decodeMisc {op : Word} {i : Instr} (hf : famOf op = 0xF) (h : decodeMisc op = some i) :
    encode i = op := by
  unfold decodeMisc at h
  split at h <;> cases h
  all_goals exact encodeRI_of_kkOf hf ‹_›

/-- Settles O2: a decoded instruction holds every field of its word but the family and a sub-opcode, and those are the ones
the decoder has tested. -/
theorem encodeInvertsDecode : Obligations.EncodeInvertsDecode := by
  intro op i h
  have hlt : famOf op < 16 := famOf_lt op
  unfold decode at h
  -- case `h_k` is family `k - 1`: first those with a decoder of their own, then the others by format
  split at h
  case h_1 hf => exact encode_of_decodeSystem hf h
  case h_9 hf => exact encode_of_decodeAlu hf h
  case h_15 hf => exact encode_of_decodeKey hf h
  case h_16 =>
    have hf : famOf op = 0xF := by grind
    exact encode_of_decodeMisc hf h
  case h_6 hf | h_10 hf =>
    obtain ⟨hn, hi⟩ := Option.ite_none_right_eq_some.1 h
    cases hi
    exact encodeRRN_of_nOf hf hn
  case h_14 hf => cases h; exact encodeRRN_fields hf
  case h_2 hf | h_3 hf | h_11 hf | h_12 hf => cases h; exact encodeA_fields hf
  all_goals cases h; exact encodeRI_fields ‹_›

/-! ## The bits that select an instruction (R94) -/

/-- The bits of a word that select its instruction, by family; the others are operands (R94). -/
def selectorMask : Nat → Word
  | 0x0 => 0xFFFF
  | 0x5 | 0x8 | 0x9 => 0xF00F
  | 0xE | 0xF => 0xF0FF
  | _ => 0xF000

theorem famOf_eq_of_mask {op op' : Word} (h : op &&& 0xF000#16 = op' &&& 0xF000#16) : famOf op = famOf op' := by
  have := congrArg BitVec.toNat h
  rw [mask_family, mask_family] at this
  rw [famOf_eq, famOf_eq]
  omega

theorem nOf_eq_of_mask {op op' : Word} (h : op &&& 0xF00F#16 = op' &&& 0xF00F#16) : nOf op = nOf op' := by
  have := congrArg BitVec.toNat h
  rw [mask_family_nibble, mask_family_nibble] at this
  apply Fin.ext
  rw [nOf_val, nOf_val]
  omega

theorem kkOf_eq_of_mask {op op' : Word} (h : op &&& 0xF0FF#16 = op' &&& 0xF0FF#16) : kkOf op = kkOf op' := by
  have := congrArg BitVec.toNat h
  rw [mask_family_byte, mask_family_byte] at this
  apply BitVec.eq_of_toNat_eq
  rw [kkOf_toNat, kkOf_toNat]
  omega

theorem eq_of_mask {op op' : Word} (h : op &&& 0xFFFF#16 = op' &&& 0xFFFF#16) : op = op' := by
  apply BitVec.eq_of_toNat_eq
  rw [← mask_all op, ← mask_all op', h]

theorem decodeAlu_isSome_congr {op op' : Word} (hn : nOf op = nOf op') :
    (decodeAlu op).isSome = (decodeAlu op').isSome := by
  unfold decodeAlu
  rw [← hn]
  split <;> rfl

theorem decodeKey_isSome_congr {op op' : Word} (hk : kkOf op = kkOf op') :
    (decodeKey op).isSome = (decodeKey op').isSome := by
  unfold decodeKey
  rw [← hk]
  split <;> rfl

theorem decodeMisc_isSome_congr {op op' : Word} (hk : kkOf op = kkOf op') :
    (decodeMisc op).isSome = (decodeMisc op').isSome := by
  unfold decodeMisc
  rw [← hk]
  split <;> rfl

/-- The decoder tests no bit outside the selector: of two words that agree there, both decode or neither does. -/
theorem decode_isSome_congr {op op' : Word} (hf : famOf op = famOf op')
    (h : op &&& selectorMask (famOf op) = op' &&& selectorMask (famOf op)) :
    (decode op).isSome = (decode op').isSome := by
  have hlt : famOf op < 16 := famOf_lt op
  unfold decode
  rw [← hf]
  -- case `h_k` is family `k - 1`: those that test more than the family
  split
  case h_1 hfam =>
    rw [hfam] at h
    rw [eq_of_mask h]
  case h_6 hfam | h_10 hfam =>
    rw [hfam] at h
    rw [nOf_eq_of_mask h]
    split <;> rfl
  case h_9 hfam =>
    rw [hfam] at h
    exact decodeAlu_isSome_congr (nOf_eq_of_mask h)
  case h_15 hfam =>
    rw [hfam] at h
    exact decodeKey_isSome_congr (kkOf_eq_of_mask h)
  case h_16 =>
    have hfam : famOf op = 0xF := by grind
    rw [hfam] at h
    exact decodeMisc_isSome_congr (kkOf_eq_of_mask h)
  all_goals rfl

/-! ## The opcode table (R96) -/

theorem selects_iff {r : OpRow} {op : Word} : r.selects op = true ↔ op &&& r.mask = r.bits := beq_iff_eq

/-- Every row fixes the selector bits of one family, and its fixed bits alone decode. -/
theorem row_fixes_selector : ∀ r ∈ opcodeTable, r.mask &&& 0xF000#16 = 0xF000#16 ∧ r.mask = selectorMask (famOf r.bits) ∧
    (decode r.bits).isSome = true := by decide

/-- A word in a row decodes, as the row's fixed bits do. -/
theorem decode_isSome_of_selects {r : OpRow} {op : Word} (hr : r ∈ opcodeTable) (h : r.selects op = true) :
    (decode op).isSome = true := by
  rw [selects_iff] at h
  obtain ⟨hfam, hmask, hdec⟩ := row_fixes_selector r hr
  have hf : famOf op = famOf r.bits := famOf_eq_of_mask (by rw [← h, BitVec.and_assoc, hfam])
  rw [decode_isSome_congr hf, hdec]
  rw [hf, ← hmask, ← h, BitVec.and_assoc, BitVec.and_self]

/-- Two rows whose fixed bits agree wherever both fix a bit are one row. -/
theorem eq_of_bits_agree : ∀ r ∈ opcodeTable, ∀ r' ∈ opcodeTable, r.bits &&& r'.mask = r'.bits &&& r.mask → r = r' := by
  decide

theorem eq_of_selects {r r' : OpRow} {op : Word} (hr : r ∈ opcodeTable) (hr' : r' ∈ opcodeTable)
    (h : r.selects op = true) (h' : r'.selects op = true) : r = r' := by
  rw [selects_iff] at h h'
  apply eq_of_bits_agree r hr r' hr'
  rw [← h, ← h']
  ac_rfl

/-- The encoding of every instruction lies in the row that its mnemonic names: the family of
`Sys2Proof/Laws/PerInstr.lean`, gathered. -/
theorem encodesInItsRow : ∀ i : Instr, Laws.EncodesInItsRow.Statement i
  | .nop => Laws.EncodesInItsRow.nop
  | .cls => Laws.EncodesInItsRow.cls
  | .ret => Laws.EncodesInItsRow.ret
  | .jp nnn => Laws.EncodesInItsRow.jp nnn
  | .call nnn => Laws.EncodesInItsRow.call nnn
  | .seImm x kk => Laws.EncodesInItsRow.seImm x kk
  | .sneImm x kk => Laws.EncodesInItsRow.sneImm x kk
  | .seReg x y => Laws.EncodesInItsRow.seReg x y
  | .ldImm x kk => Laws.EncodesInItsRow.ldImm x kk
  | .addImm x kk => Laws.EncodesInItsRow.addImm x kk
  | .ldReg x y => Laws.EncodesInItsRow.ldReg x y
  | .orReg x y => Laws.EncodesInItsRow.orReg x y
  | .andReg x y => Laws.EncodesInItsRow.andReg x y
  | .xorReg x y => Laws.EncodesInItsRow.xorReg x y
  | .addReg x y => Laws.EncodesInItsRow.addReg x y
  | .sub x y => Laws.EncodesInItsRow.sub x y
  | .shr x y => Laws.EncodesInItsRow.shr x y
  | .subn x y => Laws.EncodesInItsRow.subn x y
  | .shl x y => Laws.EncodesInItsRow.shl x y
  | .sneReg x y => Laws.EncodesInItsRow.sneReg x y
  | .ldI nnn => Laws.EncodesInItsRow.ldI nnn
  | .jpV0 nnn => Laws.EncodesInItsRow.jpV0 nnn
  | .rnd x kk => Laws.EncodesInItsRow.rnd x kk
  | .drw x y n => Laws.EncodesInItsRow.drw x y n
  | .skp x => Laws.EncodesInItsRow.skp x
  | .sknp x => Laws.EncodesInItsRow.sknp x
  | .ldVxDT x => Laws.EncodesInItsRow.ldVxDT x
  | .ldVxK x => Laws.EncodesInItsRow.ldVxK x
  | .ldDTVx x => Laws.EncodesInItsRow.ldDTVx x
  | .ldSTVx x => Laws.EncodesInItsRow.ldSTVx x
  | .addI x => Laws.EncodesInItsRow.addI x
  | .ldF x => Laws.EncodesInItsRow.ldF x
  | .ldB x => Laws.EncodesInItsRow.ldB x
  | .stRegs x => Laws.EncodesInItsRow.stRegs x
  | .ldRegs x => Laws.EncodesInItsRow.ldRegs x

/-- Settles O3: two rows select no common word, because they differ in a bit both fix; a word that decodes is the encoding of
its instruction, which lies in its row; and a word in a row decodes. -/
theorem decoderFollowsTheOpcodeTable : Obligations.DecoderFollowsTheOpcodeTable := by
  refine ⟨rfl, fun op r hr r' hr' => eq_of_selects hr hr', fun op i h => ?_, fun op h r hr => ?_⟩
  · rw [← encodeInvertsDecode op i h]
    exact encodesInItsRow i
  · by_contra hsel
    have hsome : (decode op).isSome = true := decode_isSome_of_selects hr (by simpa using hsel)
    simp [h] at hsome

/-! ## Words written out by the spec -/

/-- Settles O4: the ten words, evaluated. -/
theorem specWordsDecodeAsWritten : Obligations.SpecWordsDecodeAsWritten := by
  unfold Obligations.SpecWordsDecodeAsWritten
  decide

end Sys2Proof
end

section
/-! PROOFS. The tick (spec/40_tick.md): what a step does on each path through its phases, the timer tick at its end, and
what a faulting tick leaves. -/

namespace Sys2Proof.Machine

/-! ## The paths of a step -/

section Paths
variable {s : State}

/-- A step that fetches above `0xFFE` ends at the fetch (R121, R125). -/
theorem step_of_pc_above (hr : Running s) (hpc : 0xFFE < s.pc.toNat) :
    step s = .next (timersTicked (s.markUsed.raise (.memFault (BitVec.ofNat 16 (max s.pc.toNat 0x1000))))) := by
  have hfault : s.fault = none := hr
  simp only [step_eq, hfault, if_pos hpc, State.timerTick_eq]

/-- A step that fetches and decodes an instruction runs it, then the timer tick (R120). -/
theorem step_of_decode {i : Instr} (hr : Running s) (hpc : s.pc.toNat ≤ 0xFFE)
    (hd : decode (s.wordAt s.pc.toNat) = some i) :
    step s = .next (timersTicked (afterExec i s.markUsed.advance)) := by
  have hfault : s.fault = none := hr
  simp only [step_eq, hfault, if_neg (Nat.not_lt.2 hpc), hd, exec_eq, finishTick, State.timerTick_eq]

end Paths

/-- Settles O7: a word in range is fetched, and above `0xFFE` the step ends at the fetch. -/
theorem fetchIsBigEndianAndFaultsAboveFFE : Obligations.FetchIsBigEndianAndFaultsAboveFFE := by
  refine fun s hr => ⟨fun hpc => ?_, fun hpc => step_of_pc_above hr hpc⟩
  obtain ⟨-, hfetch⟩ | ⟨habove, -⟩ := fetchWord_cases s
  · exact hfetch
  · omega

/-- Settles O5: the state the instruction starts from is the one with `USED` set and `pc` advanced. -/
theorem stepRunsTheDecodedInstruction : Obligations.StepRunsTheDecodedInstruction := by
  intro s t i hr hpc hd hexec
  rw [step_of_decode hr hpc hd, eq_afterExec hexec]
  rfl

/-- Settles O6: a halted step answers its own state, and the status is read from the latch. -/
theorem haltedTickChangesNothing : Obligations.HaltedTickChangesNothing :=
  fun s f hf => ⟨by rw [step_eq, hf], hf⟩

/-- Settles O9: each path of a step answers a next state. -/
theorem everyTickAnswersANextState : Obligations.EveryTickAnswersANextState := exists_step

/-! ## The timer tick -/

section Timers
variable {i : Instr} {s u : State}

theorem nextInstr_of_pc_above (hpc : 0xFFE < s.pc.toNat) : nextInstr s = none :=
  if_neg (Nat.not_le.2 hpc)

theorem nextInstr_of_pc_le (hpc : s.pc.toNat ≤ 0xFFE) : nextInstr s = decode (s.wordAt s.pc.toNat) :=
  if_pos hpc

/-- A tick that executes no instruction leaves both timers to the timer tick as they were. -/
theorem timersAfterExecute_of_none (hnext : nextInstr s = none) :
    delayAfterExecute s = s.dt ∧ soundAfterExecute s = s.st := by
  simp only [delayAfterExecute, soundAfterExecute, hnext, and_self]

/-- `Fx15` is the only instruction that writes `DT` (R30, R234). -/
theorem exec_dt_eq_delayAfterExecute (hnext : nextInstr s = some i) (h : exec i s.markUsed.advance = .next u) :
    u.dt = delayAfterExecute s := by
  obtain ⟨-, -, -, -, -, hdt, -⟩ := eachStateHasOnlyItsWriters i _ u h
  unfold delayAfterExecute
  split
  · rename_i x hx
    obtain rfl : i = .ldDTVx x := Option.some.inj (hnext.symm.trans hx)
    rw [eq_afterExec h]
    rfl
  · rename_i hother
    by_contra hne
    obtain ⟨x, rfl⟩ := hdt hne
    exact hother x hnext

/-- `Fx18` is the only instruction that writes `ST` (R31, R235). -/
theorem exec_st_eq_soundAfterExecute (hnext : nextInstr s = some i) (h : exec i s.markUsed.advance = .next u) :
    u.st = soundAfterExecute s := by
  obtain ⟨-, -, -, -, -, -, hst, -⟩ := eachStateHasOnlyItsWriters i _ u h
  unfold soundAfterExecute
  split
  · rename_i x hx
    obtain rfl : i = .ldSTVx x := Option.some.inj (hnext.symm.trans hx)
    rw [eq_afterExec h]
    rfl
  · rename_i hother
    by_contra hne
    obtain ⟨x, rfl⟩ := hst hne
    exact hother x hnext

/-- A step of a running core ends with the timer tick, on a state with `DT` and `ST` as phase 5 leaves them and
`BEEP_PENDING` as it was (R126). -/
theorem step_ends_with_timerTick {t : State} (hr : Running s) (h : step s = .next t) :
    ∃ u, t = timersTicked u ∧ u.dt = delayAfterExecute s ∧ u.st = soundAfterExecute s ∧
      u.beepPending = s.beepPending := by
  obtain ⟨f, hf, -⟩ | ⟨-, hpc, rfl⟩ | ⟨-, hpc, hd, rfl⟩ | ⟨i, u, -, hpc, hd, hu, rfl⟩ := step_cases h
  · exact absurd hr (not_running_of_fault hf)
  · obtain ⟨hdt, hst⟩ := timersAfterExecute_of_none (nextInstr_of_pc_above hpc)
    exact ⟨_, State.timerTick_eq _, hdt.symm, hst.symm, rfl⟩
  · obtain ⟨hdt, hst⟩ := timersAfterExecute_of_none ((nextInstr_of_pc_le hpc).trans hd)
    exact ⟨_, State.timerTick_eq _, hdt.symm, hst.symm, rfl⟩
  · have hnext : nextInstr s = some i := (nextInstr_of_pc_le hpc).trans hd
    obtain ⟨-, hbeep, -⟩ := exec_keeps_hostLatches hu
    exact ⟨u, State.timerTick_eq u, exec_dt_eq_delayAfterExecute hnext hu, exec_st_eq_soundAfterExecute hnext hu,
      hbeep⟩

end Timers

/-- The timer tick takes `DT` down by 1, and keeps it at 0. -/
theorem timersTicked_dt_toNat (s : State) : (timersTicked s).dt.toNat = s.dt.toNat - 1 := by
  rw [← State.timerTick_eq, State.timerTick_dt, decTimer_toNat]

/-- The timer tick takes `ST` down by 1, and keeps it at 0. -/
theorem timersTicked_st_toNat (s : State) : (timersTicked s).st.toNat = s.st.toNat - 1 := by
  rw [← State.timerTick_eq, State.timerTick_st, decTimer_toNat]

/-- Settles O10: every path of a running step ends with the timer tick, on the timers phase 5 leaves. -/
theorem timerTickEndsEveryTick : Obligations.TimerTickEndsEveryTick := by
  intro s hr
  obtain ⟨t, h⟩ := exists_step s
  obtain ⟨u, rfl, hdt, hst, hbeep⟩ := step_ends_with_timerTick hr h
  refine ⟨_, h, ?_, ?_, ?_⟩
  · rw [timersTicked_dt_toNat, hdt]
  · rw [timersTicked_st_toNat, hst]
  · rw [← hst, ← hbeep]
    rfl

/-- The tick of `Fx15`: the core runs on at the next word, memory reads as before, and `DT` is one below `V[x]` (R129). -/
theorem step_ldDTVx {s : State} {x : Reg} (hr : Running s) (hpc : s.pc.toNat ≤ 0xFFE)
    (hd : decode (s.wordAt s.pc.toNat) = some (.ldDTVx x)) :
    ∃ t, step s = .next t ∧ Running t ∧ t.pc = s.pc + 2#16 ∧ t.wordAt = s.wordAt ∧
      t.dt.toNat = (s.getV x).toNat - 1 :=
  ⟨_, step_of_decode hr hpc hd, hr, rfl, rfl, timersTicked_dt_toNat (s.markUsed.advance.setDt (s.getV x))⟩

/-- The tick of `Fx07` reads `DT` before its own timer tick (R233). -/
theorem step_ldVxDT {s : State} {y : Reg} (hr : Running s) (hpc : s.pc.toNat ≤ 0xFFE)
    (hd : decode (s.wordAt s.pc.toNat) = some (.ldVxDT y)) : ∃ u, step s = .next u ∧ u.getV y = s.dt :=
  ⟨_, step_of_decode hr hpc hd, State.getV_setV_same s.markUsed.advance y s.dt⟩

/-- Settles O11: the second tick fetches the word after `Fx15`, and one timer tick stands between the write of `DT`
and the read. -/
theorem delayTimerReadsBackOneLess : Obligations.DelayTimerReadsBackOneLess := by
  intro s x y hr hpc hset hread
  obtain ⟨t, hfirst, hrt, hpct, hmem, hdt⟩ := step_ldDTVx hr (by omega) hset
  have hnext : t.pc.toNat = s.pc.toNat + 2 := by
    rw [hpct]
    bv_omega
  obtain ⟨u, hsecond, hy⟩ := step_ldVxDT (s := t) (y := y) hrt (by omega) (by rw [hmem, hnext, hread])
  exact ⟨t, u, hfirst, hsecond, by rw [hy, hdt]⟩

/-- Settles O12: with no key held `Fx0A` takes the fetch's advance back, so the execute phase leaves only `USED` set. -/
theorem waitingForAKeyIsAFullTick : Obligations.WaitingForAKeyIsAFullTick := by
  intro s x hr hpc hd hkeys
  have hnone : s.markUsed.advance.lowestKey = none := State.lowestKey_none.2 hkeys
  have hback : s.markUsed.advance.redispatch = s.markUsed := by
    have hadvance : s.pc + 2#16 - 2#16 = s.pc := BitVec.add_sub_cancel s.pc 2#16
    exact congrArg s.markUsed.setPc hadvance
  rw [step_of_decode hr hpc hd]
  simp only [afterExec, hnone, hback]
  rfl

/-! ## Faulting ticks -/

/-- An instruction keeps `FAULT`, or raises one fault and changes nothing else (R124). -/
theorem exec_fault_cases {i : Instr} {s t : State} (h : exec i s = .next t) :
    t.fault = s.fault ∨ ∃ f, t = s.raise f := by
  obtain rfl := eq_afterExec h
  cases i
  case ret | call =>
    simp only [afterExec]
    split
    · exact .inl rfl
    · exact .inr ⟨_, rfl⟩
  case drw | ldB | stRegs | ldRegs =>
    simp only [afterExec]
    split
    · exact .inr ⟨_, rfl⟩
    · exact .inl rfl
  case ldVxK =>
    simp only [afterExec]
    split <;> exact .inl rfl
  case seImm | sneImm | seReg | sneReg | skp | sknp => exact .inl (skipIf_fault s _)
  all_goals exact .inl rfl

/-- An instruction that ends with `FAULT` set on a running core did nothing but raise that fault (R125). -/
theorem exec_eq_raise_of_fault {i : Instr} {s t : State} {f : Fault} (hr : Running s) (h : exec i s = .next t)
    (hf : t.fault = some f) : t = s.raise f := by
  obtain hkept | ⟨g, rfl⟩ := exec_fault_cases h
  · exact absurd hr (not_running_of_fault (hkept.symm.trans hf))
  · exact congrArg s.raise (Option.some.inj hf)

/-- Settles O17: the fault is that of the fetch, of the decoder or of the instruction; each is raised on the state that
the phases before it have left, and the timer tick follows. -/
theorem faultingTickIsPrecise : Obligations.FaultingTickIsPrecise := by
  intro s t f hr h hf
  obtain ⟨g, hg, -⟩ | ⟨-, hpc, rfl⟩ | ⟨-, hpc, -, rfl⟩ | ⟨i, u, -, hpc, -, hu, rfl⟩ := step_cases h
  · exact absurd hr (not_running_of_fault hg)
  · obtain rfl := Option.some.inj hf
    rw [if_pos hpc, State.timerTick_eq]
    rfl
  · obtain rfl := Option.some.inj hf
    rw [if_neg (Nat.not_lt.2 hpc), State.timerTick_eq]
    rfl
  · obtain rfl : u = s.markUsed.advance.raise f := exec_eq_raise_of_fault hr hu hf
    rw [if_neg (Nat.not_lt.2 hpc), State.timerTick_eq]
    rfl

end Sys2Proof.Machine
end

section
/-! PROOFS. Control flow (spec/41_control_flow.md): where the jumps and the skips leave `pc`, what `CALL` and `RET` do
to the stack, and that the two balance. -/

namespace Sys2Proof.Machine

/-! ## Jumps -/

/-- `JP` and `CALL` reach `nnn` itself: 12 bits fit in `pc` (R142, R143). -/
theorem jumpTarget_toNat (nnn : Addr) : (jumpTarget nnn).toNat = nnn.toNat :=
  BitVec.toNat_setWidth_of_le (by decide)

/-- The sum of `JP V0` does not wrap: `0xFFF + 0xFF` fits in `pc` (R148). -/
theorem offsetTarget_toNat (nnn : Addr) (b : Byte) : (offsetTarget nnn b).toNat = nnn.toNat + b.toNat := by
  rw [offsetTarget, BitVec.toNat_add, BitVec.toNat_setWidth, BitVec.toNat_setWidth]
  omega

/-- Settles O30: `NOP` answers its own state, and each jump is one write of `pc`, whose target is exact. -/
theorem nopAndJumps : Obligations.NopAndJumps := by
  refine ⟨decode_encode .nop, fun nnn => decode_encode (.jp nnn), fun nnn => decode_encode (.jpV0 nnn),
    fun s nnn => ⟨exec_eq .nop s, ?_, ?_⟩⟩
  · exact ⟨_, exec_eq (.jp nnn) s, jumpTarget_toNat nnn, State.setPc_onlyPc s _⟩
  · exact ⟨_, exec_eq (.jpV0 nnn) s, offsetTarget_toNat nnn (s.getV 0), State.setPc_onlyPc s _⟩

/-! ## Skips -/

/-- An instruction that skips on a test adds 2 to `pc` exactly when the test holds, and changes nothing else (R144). -/
theorem exec_skip {i : Instr} {s : State} {c : Bool} {P : Prop} [Decidable P] (h : exec i s = .next (skipIf c s))
    (hc : c = true ↔ P) :
    ∃ t, exec i s = .next t ∧ t.pc = (if P then s.pc + 2 else s.pc) ∧ OnlyPc s t :=
  ⟨_, h, (skipIf_pc c s).trans (if_congr hc rfl rfl), skipIf_onlyPc c s⟩

/-- Settles O34: each of the four is a skip, on the test that two bytes are equal or that they differ. -/
theorem registerSkips : Obligations.RegisterSkips := by
  refine ⟨fun x kk => decode_encode (.seImm x kk), fun x kk => decode_encode (.sneImm x kk),
    fun x y => decode_encode (.seReg x y), fun x y => decode_encode (.sneReg x y), fun s x y kk => ⟨?_, ?_, ?_, ?_⟩⟩
  · exact exec_skip (exec_eq (.seImm x kk) s) beq_iff_eq
  · exact exec_skip (exec_eq (.sneImm x kk) s) bne_iff_ne
  · exact exec_skip (exec_eq (.seReg x y) s) beq_iff_eq
  · exact exec_skip (exec_eq (.sneReg x y) s) bne_iff_ne

/-! ## Call and return -/

section Stack
variable {s : State}

theorem exec_call_of_sp_lt (nnn : Addr) (h : s.sp.val < 16) :
    exec (.call nnn) s = .next { s with
      stack := s.stack.set s.sp.val s.pc h, sp := ⟨s.sp.val + 1, by omega⟩, pc := jumpTarget nnn } := by
  rw [exec_eq, afterExec, dif_pos h]

theorem exec_call_of_full (nnn : Addr) (h : s.sp.val = 16) : exec (.call nnn) s = .next (s.raise .stackOverflow) := by
  rw [exec_eq, afterExec, dif_neg (by omega)]

theorem exec_ret_of_sp_pos (h : 0 < s.sp.val) :
    exec .ret s = .next { s with sp := ⟨s.sp.val - 1, by omega⟩, pc := s.stack[s.sp.val - 1]'(by omega) } := by
  rw [exec_eq, afterExec, dif_pos h]

theorem exec_ret_of_empty (h : s.sp.val = 0) : exec .ret s = .next (s.raise .stackUnderflow) := by
  rw [exec_eq, afterExec, dif_neg (by omega)]

end Stack

/-- Reading a stack slot after a slot write. -/
theorem get_set_stack (stack : Vector Word 16) {n : Nat} (hn : n < 16) (w : Word) (k : Fin 16) :
    (stack.set n w hn).get k = if k.val = n then w else stack.get k := by
  simp only [Vector.get_eq_getElem, Vector.getElem_set, eq_comm]

/-- Settles O31: below 16 frames the push goes through and writes the slot at the old `SP` alone; at 16 it faults. -/
theorem callPushesTheReturnAddress : Obligations.CallPushesTheReturnAddress := by
  refine ⟨fun nnn => decode_encode (.call nnn), fun s nnn => ⟨fun h => ?_, exec_call_of_full nnn⟩⟩
  exact ⟨_, exec_call_of_sp_lt nnn h, jumpTarget_toNat nnn, rfl, get_set_stack s.stack h s.pc, rfl, fun _ => rfl⟩

/-- Settles O32: with `k + 1` frames the pop reads slot `k`, the one below `SP`; with none it faults. -/
theorem retPopsTheReturnAddress : Obligations.RetPopsTheReturnAddress := by
  refine ⟨decode_encode .ret, fun s => ⟨fun k hk => ?_, exec_ret_of_empty⟩⟩
  have hslot : s.sp.val - 1 = k.val := by omega
  refine ⟨_, exec_ret_of_sp_pos (by omega), ?_, hslot, rfl, fun _ => rfl⟩
  simp only [hslot, Vector.get_eq_getElem]

/-- Settles O33: the `RET` pops the slot at the `SP` the `CALL` started with, and the `CALL` put the post-fetch `pc`
there. -/
theorem retReturnsAfterTheCall : Obligations.RetReturnsAfterTheCall := by
  intro s nnn h
  obtain ⟨-, hcalls⟩ := callPushesTheReturnAddress
  obtain ⟨-, hrets⟩ := retPopsTheReturnAddress
  obtain ⟨hpush, -⟩ := hcalls s nnn
  obtain ⟨t, hcall, -, hsp, hslots, -⟩ := hpush h
  refine ⟨t, hcall, fun u husp hkept => ?_⟩
  obtain ⟨hpop, -⟩ := hrets u
  obtain ⟨w, hret, hpc, hwsp, hframe, -⟩ := hpop ⟨s.sp.val, h⟩ (by rw [husp, hsp])
  refine ⟨w, hret, ?_, Fin.ext hwsp, hframe⟩
  rw [hpc, hkept _ rfl, hslots, if_pos rfl]

end Sys2Proof.Machine
end

section
/-! PROOFS. The register instructions (spec/42_alu.md): each is one write of `V[x]`, or a write of `V[x]` followed by a
write of `VF`; and `VF` as a flag register over all instructions (spec/10_state.md R21, R22). -/

namespace Sys2Proof.Machine

/-! ## Flags as register values (R22, R172) -/

theorem flagByte_eq_zero_or_one (f : Bool) : flagByte f = 0 ∨ flagByte f = 1 := by
  cases f
  · exact .inl rfl
  · exact .inr rfl

theorem flagByte_toNat (f : Bool) : (flagByte f).toNat = f.toNat := by cases f <;> rfl

theorem flagByte_decide_toNat (p : Prop) [Decidable p] : (flagByte (decide p)).toNat = if p then 1 else 0 := by
  rw [flagByte_toNat, Bool.toNat, Bool.cond_decide]

/-- The carry as a number (R166). -/
theorem flagByte_carryOut_toNat (a b : Byte) :
    (flagByte (carryOut a b)).toNat = if 255 < a.toNat + b.toNat then 1 else 0 := flagByte_decide_toNat _

/-- The no-borrow flag as a number (R167, R169). -/
theorem flagByte_noBorrow_toNat (a b : Byte) :
    (flagByte (noBorrow a b)).toNat = if b.toNat ≤ a.toNat then 1 else 0 := flagByte_decide_toNat _

/-- The bit a right shift loses is the remainder of the halving (R168). -/
theorem flagByte_shrOut_toNat (a : Byte) : (flagByte (shrOut a)).toNat = a.toNat % 2 := by
  rw [flagByte_toNat, shrOut, BitVec.getLsbD, Nat.toNat_testBit, pow_zero, Nat.div_one]

/-- The bit a left shift loses is the quotient by 128: nothing lies above bit 7 (R170). -/
theorem flagByte_shlOut_toNat (a : Byte) : (flagByte (shlOut a)).toNat = a.toNat / 128 := by
  rw [flagByte_toNat, shlOut, BitVec.getLsbD, Nat.toNat_testBit]
  omega

/-! ## Results as numbers -/

theorem byte_sub_toNat (a b : Byte) : (a - b).toNat = (a.toNat + 256 - b.toNat) % 256 := by
  rw [BitVec.toNat_sub]
  omega

theorem byte_shiftRight_one_toNat (a : Byte) : (a >>> 1).toNat = a.toNat / 2 := by
  rw [BitVec.toNat_ushiftRight, Nat.shiftRight_one]

theorem byte_shiftLeft_one_toNat (a : Byte) : (a <<< 1).toNat = a.toNat * 2 % 256 := by
  rw [BitVec.toNat_shiftLeft, Nat.shiftLeft_eq, pow_one]

/-! ## One register write -/

theorem State.setV_otherRegs (s : State) (x : Reg) (b : Byte) : OtherRegs x s (s.setV x b) :=
  fun _ hr => State.getV_setV_other s b hr

/-- A register that changes in a register write is the one written. -/
theorem State.eq_of_getV_setV_ne {s : State} {x r : Reg} {b : Byte} (h : (s.setV x b).getV r ≠ s.getV r) : x = r := by
  by_contra hx
  exact h (State.getV_setV_other s b (Ne.symm hx))

/-- An instruction that is one register write: its result, and everything else as before. -/
theorem exec_setV {i : Instr} {s : State} {x : Reg} {b : Byte} (h : exec i s = .next (s.setV x b)) :
    ∃ t, exec i s = .next t ∧ t.getV x = b ∧ OtherRegs x s t ∧ OnlyRegs s t :=
  ⟨_, h, State.getV_setV_same s x b, State.setV_otherRegs s x b, State.setV_onlyRegs s x b⟩

/-- Settles O24: each is one register write, of `kk`, of the sum that the 8 bits keep, or of `V[y]`. -/
theorem loadsAndImmediateAdd : Obligations.LoadsAndImmediateAdd := by
  refine ⟨fun x kk => decode_encode (.ldImm x kk), fun x kk => decode_encode (.addImm x kk),
    fun x y => decode_encode (.ldReg x y), fun s x y kk => ⟨?_, ?_, ?_⟩⟩
  · exact exec_setV (exec_eq (.ldImm x kk) s)
  · obtain ⟨t, h, hx, hframe⟩ := exec_setV (exec_eq (.addImm x kk) s)
    exact ⟨t, h, by rw [hx, BitVec.toNat_add], hframe⟩
  · exact exec_setV (exec_eq (.ldReg x y) s)

/-- Settles O25: each is one register write; the bitwise operations act bit by bit. -/
theorem logicInstructions : Obligations.LogicInstructions := by
  refine ⟨fun x y => decode_encode (.orReg x y), fun x y => decode_encode (.andReg x y),
    fun x y => decode_encode (.xorReg x y), fun s x y => ⟨?_, ?_, ?_⟩⟩
  · obtain ⟨t, h, hx, hframe⟩ := exec_setV (exec_eq (.orReg x y) s)
    exact ⟨t, h, fun b => by rw [hx, BitVec.getLsbD_or], hframe⟩
  · obtain ⟨t, h, hx, hframe⟩ := exec_setV (exec_eq (.andReg x y) s)
    exact ⟨t, h, fun b => by rw [hx, BitVec.getLsbD_and], hframe⟩
  · obtain ⟨t, h, hx, hframe⟩ := exec_setV (exec_eq (.xorReg x y) s)
    exact ⟨t, h, fun b => by rw [hx, BitVec.getLsbD_xor], hframe⟩

/-! ## A result and a flag (R174) -/

/-- The flag write is last, so it stands for every `x` (R14). -/
@[simp] theorem State.getV_setWithFlag_flagReg (s : State) (x : Reg) (b : Byte) (f : Bool) :
    (s.setWithFlag x b f).getV flagReg = flagByte f := by
  rw [State.getV_setWithFlag, if_pos rfl]

/-- The result stands unless the flag is written over it. -/
theorem State.getV_setWithFlag_result (s : State) {x : Reg} (b : Byte) (f : Bool) (hx : x ≠ flagReg) :
    (s.setWithFlag x b f).getV x = b := by
  rw [State.getV_setWithFlag, if_neg hx, if_pos rfl]

theorem State.setWithFlag_otherRegsAndFlag (s : State) (x : Reg) (b : Byte) (f : Bool) :
    OtherRegsAndFlag x s (s.setWithFlag x b f) := by
  intro r hx hflag
  rw [State.getV_setWithFlag, if_neg hflag, if_neg hx]

/-- A register that changes in a result and flag write is one of the two written. -/
theorem State.eq_of_getV_setWithFlag_ne {s : State} {x r : Reg} {b : Byte} {f : Bool}
    (h : (s.setWithFlag x b f).getV r ≠ s.getV r) : x = r ∨ r = flagReg := by
  by_contra! hr
  obtain ⟨hx, hflag⟩ := hr
  exact h (State.setWithFlag_otherRegsAndFlag s x b f r hx.symm hflag)

/-- What a result and flag write leaves, the two values given as numbers. -/
theorem State.setWithFlag_values (s : State) (x : Reg) {b : Byte} {f : Bool} {result flag : Nat}
    (hb : b.toNat = result) (hf : (flagByte f).toNat = flag) :
    (x ≠ flagReg → ((s.setWithFlag x b f).getV x).toNat = result) ∧
      ((s.setWithFlag x b f).getV flagReg).toNat = flag ∧
      OtherRegsAndFlag x s (s.setWithFlag x b f) ∧ OnlyRegs s (s.setWithFlag x b f) := by
  refine ⟨fun hx => ?_, ?_, State.setWithFlag_otherRegsAndFlag s x b f, State.setWithFlag_onlyRegs s x b f⟩
  · rw [State.getV_setWithFlag_result s b f hx, hb]
  · rw [State.getV_setWithFlag_flagReg, hf]

/-- Settles O26: the sum the 8 bits keep and the carry, both of the values before the instruction. -/
theorem addWithCarry : Obligations.AddWithCarry :=
  ⟨fun x y => decode_encode (.addReg x y), fun s x y => ⟨_, exec_eq (.addReg x y) s,
    State.setWithFlag_values s x (BitVec.toNat_add (s.getV x) (s.getV y)) (flagByte_carryOut_toNat _ _)⟩⟩

/-- Settles O27: the difference the 8 bits keep and the no-borrow flag; `SUBN` is `SUB` with the operands swapped. -/
theorem subtractWithNoBorrowFlag : Obligations.SubtractWithNoBorrowFlag := by
  refine ⟨fun x y => decode_encode (.sub x y), fun x y => decode_encode (.subn x y), fun s x y => ⟨?_, ?_⟩⟩
  · exact ⟨_, exec_eq (.sub x y) s,
      State.setWithFlag_values s x (byte_sub_toNat (s.getV x) (s.getV y)) (flagByte_noBorrow_toNat _ _)⟩
  · exact ⟨_, exec_eq (.subn x y) s,
      State.setWithFlag_values s x (byte_sub_toNat (s.getV y) (s.getV x)) (flagByte_noBorrow_toNat _ _)⟩

/-- Settles O28: the state `SHR` or `SHL` leaves does not look at `y`; the result and the bit shifted out are a
quotient and a remainder of the old value. -/
theorem shiftsInPlace : Obligations.ShiftsInPlace := by
  refine ⟨fun x y => decode_encode (.shr x y), fun x y => decode_encode (.shl x y), fun s x => ⟨?_, ?_⟩⟩
  · exact ⟨_, fun y => exec_eq (.shr x y) s,
      State.setWithFlag_values s x (byte_shiftRight_one_toNat (s.getV x)) (flagByte_shrOut_toNat _)⟩
  · exact ⟨_, fun y => exec_eq (.shl x y) s,
      State.setWithFlag_values s x (byte_shiftLeft_one_toNat (s.getV x)) (flagByte_shlOut_toNat _)⟩

/-! ## The random byte -/

theorem State.consumeRandom_supplied {s : State} {r : Byte} {l : List Byte} (h : s.rndSupply = r :: l) :
    s.consumeRandom = { s with rndSupply := l, rndDraws := s.rndDraws + 1 } := by
  rw [State.consumeRandom, h, List.tail_cons]

theorem State.consumeRandom_free {s : State} (h : s.rndSupply = []) :
    s.consumeRandom = { s with rndDraws := s.rndDraws + 1 } := by
  rw [State.consumeRandom, h, List.tail_nil, ← h]

/-- `Cxkk` writes the masked byte to `V[x]`; apart from the registers it leaves the state the draw leaves (R171). -/
theorem exec_rnd (s : State) (x : Reg) (kk : Byte) :
    ∃ t, exec (.rnd x kk) s = .next t ∧ t.getV x = s.randomByte &&& kk ∧ OtherRegs x s t ∧ SameMemory s t ∧
      t = { s.consumeRandom with v := t.v } :=
  ⟨_, exec_eq (.rnd x kk) s, State.getV_setV_same s.consumeRandom x _, State.setV_otherRegs s.consumeRandom x _,
    fun _ => rfl, rfl⟩

/-- Settles O29: the draw takes the oldest supplied byte off the supply, or, with none supplied, yields the free
value and leaves the supply empty. -/
theorem randomByteIsMaskedAndConsumed : Obligations.RandomByteIsMaskedAndConsumed := by
  refine ⟨fun x kk => decode_encode (.rnd x kk), fun s x kk => ?_⟩
  obtain ⟨t, h, hx, hothers, hmem, ht⟩ := exec_rnd s x kk
  refine ⟨fun r l hs => ?_, fun hs => ?_⟩
  · rw [State.randomByte_supplied s hs] at hx
    rw [State.consumeRandom_supplied hs] at ht
    exact ⟨t, h, hx, hothers, hmem, ht⟩
  · rw [State.randomByte_free s hs] at hx
    rw [State.consumeRandom_free hs] at ht
    exact ⟨t, h, hx, hothers, hmem, ht⟩

/-! ## Who writes which register (R16, R21, R22) -/

/-- After a flag instruction that leaves no fault, `VF` is a flag: the only one of the six that can fault is `DRW`. -/
theorem afterExec_flagReg {i : Instr} {s : State} (hi : writesFlag i = true) (hf : (afterExec i s).fault = none) :
    ∃ f, (afterExec i s).getV flagReg = flagByte f := by
  cases i
  case addReg | sub | shr | subn | shl => exact ⟨_, State.getV_setWithFlag_flagReg s _ _ _⟩
  case drw x y n =>
    simp only [afterExec] at hf ⊢
    split at hf
    · cases hf
    · next hrange => exact ⟨_, by rw [if_neg hrange, State.getV_draw, if_pos rfl]⟩
  -- the others do not write a flag
  all_goals cases hi

/-- A register that an instruction changes is its destination, or `VF` written as a flag. -/
theorem writesReg_or_flagReg_of_ne {i : Instr} {s : State} {r : Reg} (h : (afterExec i s).getV r ≠ s.getV r) :
    writesReg i r = true ∨ (r = flagReg ∧ writesFlag i = true) := by
  cases i
  case ldImm | addImm | ldReg | orReg | andReg | xorReg | rnd | ldVxDT =>
    exact .inl (beq_iff_eq.2 (State.eq_of_getV_setV_ne h))
  case addReg | sub | shr | subn | shl =>
    obtain hx | hr := State.eq_of_getV_setWithFlag_ne h
    · exact .inl (beq_iff_eq.2 hx)
    · exact .inr ⟨hr, rfl⟩
  case ldVxK =>
    simp only [afterExec] at h
    split at h
    · exact .inl (beq_iff_eq.2 (State.eq_of_getV_setV_ne h))
    · exact absurd rfl h
  case ldRegs =>
    simp only [afterExec] at h
    split at h
    · exact absurd rfl h
    · rw [State.getV_setLowVs] at h
      obtain ⟨hle, -⟩ := ite_ne_right_iff.1 h
      exact .inl (decide_eq_true hle)
  case drw =>
    simp only [afterExec] at h
    split at h
    · exact absurd rfl h
    · rw [State.getV_draw] at h
      obtain ⟨hr, -⟩ := ite_ne_right_iff.1 h
      exact .inr ⟨hr, rfl⟩
  case seImm | sneImm | seReg | sneReg | skp | sknp => exact absurd (skipIf_getV s _ r) h
  case ret | call | ldB | stRegs =>
    simp only [afterExec] at h
    split at h <;> exact absurd rfl h
  -- the others write no register
  all_goals exact absurd rfl h

/-- Settles O19: a flag byte is 0 or 1, and the only registers written are the destination and the flag. -/
theorem flagRegisterRule : Obligations.FlagRegisterRule := by
  refine ⟨fun i s hi _ => ⟨afterExec i s, exec_eq i s, fun hf => ?_⟩, fun i s t r h hne => ?_⟩
  · obtain ⟨f, hflag⟩ := afterExec_flagReg hi hf
    rw [hflag]
    exact flagByte_eq_zero_or_one f
  · obtain rfl := eq_afterExec h
    exact writesReg_or_flagReg_of_ne hne

end Sys2Proof.Machine
end

section
/-! PROOFS. The index register and the memory transfers (spec/43_index_memory.md): the three writers of `I`, and what the
instructions that go through `I` store, load, and leave when their range passes `0xFFF`. -/

namespace Sys2Proof.Machine

/-! ## The writers of `I` -/

theorem addIndex_toNat (a : Addr) (b : Byte) : (addIndex a b).toNat = (a.toNat + b.toNat) % 4096 := by
  rw [addIndex, BitVec.toNat_add, BitVec.toNat_setWidth_of_le (by decide)]

/-- The last glyph starts at 75, so the product fits in `I` (R192). -/
theorem glyphAddress_toNat (b : Byte) : (glyphAddress b).toNat = 5 * (b.toNat % 16) := by
  have hdigit : (lowNibble b).val = b.toNat % 16 := rfl
  rw [glyphAddress, BitVec.toNat_ofNat, hdigit]
  omega

/-- Settles O35: each is one write of `I`, of `nnn`, of the sum that the 12 bits keep, or of the glyph's address. -/
theorem indexRegisterWriters : Obligations.IndexRegisterWriters := by
  refine ⟨fun nnn => decode_encode (.ldI nnn), fun x => decode_encode (.addI x), fun x => decode_encode (.ldF x),
    fun s nnn x => ⟨?_, ?_, ?_⟩⟩
  · exact ⟨_, exec_eq (.ldI nnn) s, rfl, State.setI_onlyIndex s nnn⟩
  · exact ⟨_, exec_eq (.addI x) s, addIndex_toNat s.i (s.getV x), State.setI_onlyIndex s _⟩
  · exact ⟨_, exec_eq (.ldF x) s, glyphAddress_toNat (s.getV x), State.setI_onlyIndex s _⟩

/-! ## Ranges that pass `0xFFF` (R70) -/

section Above
variable {s : State} {x : Reg}

theorem exec_ldB_above (h : 0xFFF < s.base + 2) : exec (.ldB x) s = .next (s.raise (.memFault 0x1000#16)) := by
  rw [exec_eq, afterExec, if_pos h]

theorem exec_stRegs_above (h : 0xFFF < s.base + x.val) :
    exec (.stRegs x) s = .next (s.raise (.memFault 0x1000#16)) := by
  rw [exec_eq, afterExec, if_pos h]

theorem exec_ldRegs_above (h : 0xFFF < s.base + x.val) :
    exec (.ldRegs x) s = .next (s.raise (.memFault 0x1000#16)) := by
  rw [exec_eq, afterExec, if_pos h]

end Above

/-! ## Decimal digits -/

@[simp] theorem length_bcdDigits (b : Byte) : (bcdDigits b).length = 3 := rfl

/-- `Fx33` in range: the bytes at `I`, `I+1` and `I+2` are the digits as numbers, and no other byte changes (R193). -/
theorem exec_ldB_in_range {s : State} {x : Reg} (hw : Memory.wf s.mem = true) (hr : s.base + 2 ≤ 0xFFF) :
    ∃ t, exec (.ldB x) s = .next t ∧
      (t.byteAt s.base).toNat = (s.getV x).toNat / 100 ∧
      (t.byteAt (s.base + 1)).toNat = (s.getV x).toNat / 10 % 10 ∧
      (t.byteAt (s.base + 2)).toNat = (s.getV x).toNat % 10 ∧ OnlyMemory s.base 3 s t := by
  obtain ⟨t, hwrite, hbytes, honly, -⟩ :=
    writeBytes_in_range (base := s.base) (bytes := bcdDigits (s.getV x)) hw (Nat.succ_le_succ hr)
  have hexec : exec (.ldB x) s = .next t := congrArg (orRaise s) hwrite
  have hhundreds : t.byteAt s.base = BitVec.ofNat 8 ((s.getV x).toNat / 100) := hbytes 0 (by simp)
  have htens : t.byteAt (s.base + 1) = BitVec.ofNat 8 ((s.getV x).toNat / 10 % 10) := hbytes 1 (by simp)
  have hones : t.byteAt (s.base + 2) = BitVec.ofNat 8 ((s.getV x).toNat % 10) := hbytes 2 (by simp)
  -- a digit fits in its byte: no reduction modulo 256
  have hfits {d : Nat} (hd : d ≤ (s.getV x).toNat) : (BitVec.ofNat 8 d).toNat = d := by
    rw [BitVec.toNat_ofNat, Nat.mod_eq_of_lt (hd.trans_lt (s.getV x).isLt)]
  refine ⟨t, hexec, ?_, ?_, ?_, honly⟩
  · rw [hhundreds, hfits (Nat.div_le_self _ _)]
  · rw [htens, hfits (by omega)]
  · rw [hones, hfits (Nat.mod_le _ _)]

/-- Settles O36: the digits in range, whose decimal value is the number itself, and the fault above. -/
theorem bcdStoresThreeDigits : Obligations.BcdStoresThreeDigits := by
  refine ⟨fun x => decode_encode (.ldB x), fun s x hw => ⟨fun hr => ?_, exec_ldB_above⟩⟩
  obtain ⟨t, hexec, hhundreds, htens, hones, honly⟩ := exec_ldB_in_range (x := x) hw hr
  have hvalue : (t.byteAt s.base).toNat * 100 + (t.byteAt (s.base + 1)).toNat * 10 + (t.byteAt (s.base + 2)).toNat =
      (s.getV x).toNat := by omega
  exact ⟨t, hexec, hhundreds, htens, hones, hvalue, honly⟩

/-! ## Block store and block load -/

/-- Settles O37: the store in range, and the fault above it. -/
theorem storeRegisters : Obligations.StoreRegisters := by
  refine ⟨fun x => decode_encode (.stRegs x), fun s x hw => ⟨fun hr => ?_, exec_stRegs_above⟩⟩
  obtain ⟨t, hexec, hstored, honly, -⟩ := exec_stRegs_in_range hw hr
  exact ⟨t, hexec, hstored, honly⟩

theorem State.setLowVs_onlyRegs (s : State) (x : Reg) (bytes : List Byte) : OnlyRegs s (s.setLowVs x bytes) :=
  ⟨rfl, fun _ => rfl⟩

/-- `Fx65` in range: `V[j]` is the byte at `I + j` for every `j` up to `x`, and nothing but those registers changes
(R195). -/
theorem exec_ldRegs_in_range {s : State} {x : Reg} (hr : s.base + x.val ≤ 0xFFF) :
    ∃ t, exec (.ldRegs x) s = .next t ∧
      (∀ j : Reg, t.getV j = if j.val ≤ x.val then s.byteAt (s.base + j.val) else s.getV j) ∧ OnlyRegs s t := by
  have hexec : exec (.ldRegs x) s = .next (s.setLowVs x (Memory.readBytes s.mem s.base (x.val + 1))) := by
    rw [exec_eq, afterExec, if_neg (Nat.not_lt.2 hr)]
  refine ⟨_, hexec, fun j => ?_, State.setLowVs_onlyRegs s x _⟩
  rw [State.getV_setLowVs]
  split
  · next hj =>
    have hlen : j.val < (Memory.readBytes s.mem s.base (x.val + 1)).length := by
      rw [Memory.length_readBytes]
      omega
    rw [List.getD_eq_getElem _ _ hlen, Memory.getElem_readBytes, State.byteAt]
  · rfl

/-- Settles O38: the load in range, and the fault above it. -/
theorem loadRegisters : Obligations.LoadRegisters :=
  ⟨fun x => decode_encode (.ldRegs x), fun _ _ => ⟨exec_ldRegs_in_range, exec_ldRegs_above⟩⟩

/-- States that agree in every register and differ in registers only are the same. -/
theorem OnlyRegs.eq_of_getV {s t : State} (h : OnlyRegs s t) (hv : ∀ r, t.getV r = s.getV r) : t = s := by
  obtain ⟨ht, -⟩ := h
  have hregs : t.v = s.v := Vector.ext fun k hk => hv ⟨k, hk⟩
  rw [ht, hregs]

/-- Settles O39: the load reads back the bytes the store wrote, through the same `I`, so no register changes. -/
theorem storeThenLoadIsIdentity : Obligations.StoreThenLoadIsIdentity := by
  intro s x hw hr
  obtain ⟨t, hstore, hstored, ⟨ht, -⟩, -⟩ := exec_stRegs_in_range hw hr
  have hkept : ∀ r, t.getV r = s.getV r := fun r => by rw [ht]; rfl
  have hbase : t.base = s.base := by rw [ht]; rfl
  obtain ⟨u, hload, hloaded, honly⟩ := exec_ldRegs_in_range (s := t) (x := x) (by rw [hbase]; exact hr)
  have hsame : u = t := honly.eq_of_getV fun r => by
    rw [hloaded]
    split
    · next hle => rw [hbase, hstored r hle, hkept]
    · rfl
  rw [hsame] at hload
  exact ⟨t, hstore, hload, hkept⟩

end Sys2Proof.Machine
end

section
/-! PROOFS. The display (spec/44_display.md): clearing the screen, the cells of one draw, and what `Dxyn` does to the
framebuffer and `VF` in the spec's own reading of a sprite. -/

namespace Sys2Proof.Machine

/-! ## Clear screen -/

/-- Settles O40: the framebuffer alone is replaced, by the blank one, so a second time changes nothing. -/
theorem clearScreen : Obligations.ClearScreen :=
  ⟨decode_encode .cls, fun s => ⟨s.setFb Frame.blank, exec_eq .cls s, fun k _ => Frame.cell_blank k, rfl, fun _ => rfl,
    exec_eq .cls (s.setFb Frame.blank)⟩⟩

/-! ## The positions of one draw -/

/-- Two positions fewer than 32 rows and 64 columns apart are one cell only when they are the same, wherever the sprite
starts (R212). -/
theorem pixelCell_inj {col row r b r' b' : Nat} (hr : r < 32) (hr' : r' < 32) (hb : b < 64) (hb' : b' < 64)
    (h : pixelCell col row r b = pixelCell col row r' b') : r = r' ∧ b = b' := by
  unfold pixelCell at h
  have hrow : (row + r) % 32 = (row + r') % 32 := by omega
  have hcol : (col + b) % 64 = (col + b') % 64 := by omega
  exact ⟨by omega, by omega⟩

/-- Settles O43: 15 rows and 8 columns are fewer than wrap onto themselves. -/
theorem spritePositionsAreDistinct : Obligations.SpritePositionsAreDistinct :=
  ⟨fun _ _ _ _ _ _ hr hr' hb hb' => pixelCell_inj (by omega) (by omega) (by omega) (by omega), pixelCell_lt, rfl⟩

/-! ## The sprite at `I`, drawn -/

theorem flagByte_eq_one_iff (f : Bool) : flagByte f = 1 ↔ f = true := by
  cases f <;> decide

theorem spriteCol_lt (b : Byte) : spriteCol b < 64 := Nat.mod_lt _ (by decide)

theorem spriteRow_lt (b : Byte) : spriteRow b < 32 := Nat.mod_lt _ (by decide)

/-- The spec's reading of a sprite looks at memory and `I` only. -/
theorem spriteOn_congr {s t : State} (hmem : SameMemory s t) (hbase : t.base = s.base) (col row n k : Nat) :
    spriteOn t col row n k = spriteOn s col row n k := by
  rw [spriteOn, spriteOn, hbase, hmem]

section Sprite
variable (s : State) {col row n : Nat} (hc : col < 64) (hr : row < 32) (hn : n ≤ 32)
include hc hr hn

/-- Every cell ends as its old value XOR the sprite's bit on it (R211). -/
theorem cell_drawSprite_memory {k : Nat} (hk : k < 2048) :
    Frame.cell (drawSprite s.fb col row (Memory.readBytes s.mem s.base n)).1 k =
      (Frame.cell s.fb k ^^ spriteOn s col row n k) := by
  obtain ⟨hcells, -⟩ := drawSprite_spec s.fb col row (Memory.readBytes s.mem s.base n) (by rwa [Memory.length_readBytes])
  rw [hcells k hk, spriteHits_memory s hc hr hn hk]

/-- The collision flag says whether a set bit of the sprite lies on a set cell (R211). -/
theorem drawSprite_memory_collides_iff :
    (drawSprite s.fb col row (Memory.readBytes s.mem s.base n)).2 = true ↔
      ∃ k, k < 2048 ∧ Frame.cell s.fb k = true ∧ spriteOn s col row n k = true := by
  obtain ⟨-, hflag⟩ := drawSprite_spec s.fb col row (Memory.readBytes s.mem s.base n) (by rwa [Memory.length_readBytes])
  rw [hflag]
  exact exists_congr fun k => and_congr_right fun hk => by rw [spriteHits_memory s hc hr hn hk]

end Sprite

/-! ## Draw -/

section Draw
variable {s : State} {x y : Reg} {n : Fin 16}

theorem exec_drw_in_range (h : n.val = 0 ∨ s.base + n.val - 1 ≤ 0xFFF) :
    exec (.drw x y n) s =
      .next (s.draw (spriteCol (s.getV x)) (spriteRow (s.getV y)) (Memory.readBytes s.mem s.base n.val)) := by
  rw [exec_eq, afterExec, if_neg (by omega)]

theorem exec_drw_above (h : 0 < n.val ∧ 0xFFF < s.base + n.val - 1) :
    exec (.drw x y n) s = .next (s.raise (.memFault 0x1000#16)) := by
  rw [exec_eq, afterExec, if_pos h]

end Draw

/-- `VF` after a draw is the collision flag (R211). -/
theorem State.getV_draw_flagReg (s : State) (col row : Nat) (sprite : List Byte) :
    (s.draw col row sprite).getV flagReg = flagByte (drawSprite s.fb col row sprite).2 := by
  rw [State.getV_draw, if_pos rfl]

theorem State.draw_otherRegs (s : State) (col row : Nat) (sprite : List Byte) :
    OtherRegs flagReg s (s.draw col row sprite) := by
  intro r hr
  rw [State.getV_draw, if_neg hr]

/-- Settles O41: in range, the sprite loop in the spec's reading of a sprite; above, the fault before any effect. -/
theorem drawXorsTheSprite : Obligations.DrawXorsTheSprite := by
  refine ⟨fun x y n => decode_encode (.drw x y n), fun s x y n => ⟨fun h => ?_, exec_drw_above⟩⟩
  have hc : spriteCol (s.getV x) < 64 := spriteCol_lt _
  have hr : spriteRow (s.getV y) < 32 := spriteRow_lt _
  have hn : n.val ≤ 32 := by omega
  refine ⟨_, exec_drw_in_range h, fun k hk => cell_drawSprite_memory s hc hr hn hk, ?_, ?_, rfl,
    State.draw_otherRegs s _ _ _, fun _ => rfl, rfl⟩
  · rw [State.getV_draw_flagReg, flagByte_eq_one_iff]
    exact drawSprite_memory_collides_iff s hc hr hn
  · rw [State.getV_draw_flagReg]
    exact flagByte_eq_zero_or_one _

/-- Settles O42: the second draw reads the same sprite, so it XORs the same bits into the same cells; it meets a set cell
where the first set one that was 0. -/
theorem drawTwiceRestores : Obligations.DrawTwiceRestores := by
  intro s x y n h
  obtain ⟨-, hdraws⟩ := drawXorsTheSprite
  obtain ⟨hfirst, -⟩ := hdraws s x y n
  obtain ⟨t, hexec, hcells, -, -, -, -, hmem, ht⟩ := hfirst h
  have hi : t.i = s.i := by rw [ht]
  refine ⟨t, hexec, fun x' y' hx hy => ?_⟩
  obtain ⟨hsecond, -⟩ := hdraws t x' y' n
  obtain ⟨u, hexec', hcells', hflag, -⟩ := hsecond (by rwa [hi])
  have hsprite : ∀ col row k, spriteOn t col row n.val k = spriteOn s col row n.val k := fun col row k =>
    spriteOn_congr hmem (congrArg BitVec.toNat hi) col row n.val k
  simp only [hx, hy, hsprite] at hcells' hflag
  refine ⟨u, hexec', Frame.ext_cells fun k hk => ?_, hflag.trans (exists_congr fun k => and_congr_right fun hk => ?_)⟩
  · rw [hcells' k hk, hcells k hk, Bool.xor_assoc, Bool.xor_self, Bool.xor_false]
  · refine and_congr_left fun hon => ?_
    rw [hcells k hk, hon, Bool.xor_true, Bool.not_eq_true']

end Sys2Proof.Machine
end

section
/-! PROOFS. The keypad and the timers (spec/45_keypad_timers.md): the two skips on a key, the wait for a key, and the bytes
moved between a register and a timer. -/

namespace Sys2Proof.Machine

/-! ## Skips on a key -/

/-- The key a register selects is its low nibble (R230, R231). -/
theorem lowNibble_eq_of_val {b : Byte} {k : Fin 16} (h : k.val = b.toNat % 16) : lowNibble b = k :=
  Fin.ext h.symm

/-- Settles O44: each is a skip, on the test that the selected key is held or that it is not. -/
theorem keySkips : Obligations.KeySkips := by
  refine ⟨fun x => decode_encode (.skp x), fun x => decode_encode (.sknp x), fun s x k hk => ?_⟩
  obtain rfl := lowNibble_eq_of_val hk
  exact ⟨exec_skip (exec_eq (.skp x) s) Iff.rfl, exec_skip (exec_eq (.sknp x) s) (by rw [Bool.not_eq_true'])⟩

/-! ## The wait for a key -/

/-- A held key with no held key below it is the one the scan finds: the scan finds some key, and of two least keys neither
is below the other (R232). -/
theorem State.lowestKey_eq_some {s : State} {k : Fin 16} (hk : s.keyHeld k = true)
    (hleast : ∀ j, j < k → s.keyHeld j = false) : s.lowestKey = some k := by
  cases h : s.lowestKey with
  | none => exact absurd hk (Bool.eq_false_iff.1 (State.lowestKey_none.1 h k))
  | some j =>
    obtain ⟨hj, hfirst⟩ := State.lowestKey_some h
    have hkj : ¬ k < j := fun hlt => Bool.eq_false_iff.1 (hfirst k hlt) hk
    have hjk : ¬ j < k := fun hlt => Bool.eq_false_iff.1 (hleast j hlt) hj
    rw [le_antisymm (not_lt.1 hkj) (not_lt.1 hjk)]

theorem keyByte_toNat (k : Fin 16) : (keyByte k).toNat = k.val := by
  rw [keyByte, BitVec.toNat_ofNat, Nat.mod_eq_of_lt (by omega)]

theorem State.redispatch_onlyPc (s : State) : OnlyPc s s.redispatch := State.setPc_onlyPc s _

section Wait
variable {s : State} {k : Fin 16} (x : Reg)

theorem exec_ldVxK_held (h : s.lowestKey = some k) : exec (.ldVxK x) s = .next (s.setV x (keyByte k)) := by
  simp only [exec_eq, afterExec, h]

theorem exec_ldVxK_none (h : s.lowestKey = none) : exec (.ldVxK x) s = .next s.redispatch := by
  simp only [exec_eq, afterExec, h]

end Wait

/-- Settles O45: with a key held it is one register write, of the key the scan finds; with none, one write of `pc`. -/
theorem waitForKey : Obligations.WaitForKey := by
  refine ⟨fun x => decode_encode (.ldVxK x), fun s x => ⟨fun k hk hleast => ?_, fun hnone => ?_⟩⟩
  · obtain ⟨t, h, hx, hframe⟩ := exec_setV (exec_ldVxK_held x (State.lowestKey_eq_some hk hleast))
    exact ⟨t, h, by rw [hx, keyByte_toNat], hframe⟩
  · exact ⟨_, exec_ldVxK_none x (State.lowestKey_none.2 hnone), State.redispatch_pc s, State.redispatch_onlyPc s⟩

/-! ## Timer registers -/

/-- Settles O46: the read is one register write, of `DT`; the other two are one write of a timer, of `V[x]`. -/
theorem timerRegisters : Obligations.TimerRegisters := by
  refine ⟨fun x => decode_encode (.ldVxDT x), fun x => decode_encode (.ldDTVx x), fun x => decode_encode (.ldSTVx x),
    fun s x => ⟨?_, ?_, ?_⟩⟩
  · exact exec_setV (exec_eq (.ldVxDT x) s)
  · exact ⟨_, exec_eq (.ldDTVx x) s, State.setDt_dt s (s.getV x), rfl, State.setDt_byteAt s (s.getV x)⟩
  · exact ⟨_, exec_eq (.ldSTVx x) s, State.setSt_st s (s.getV x), rfl, State.setSt_byteAt s (s.getV x)⟩

end Sys2Proof.Machine
end

section
/-! PROOFS. The host interface (spec/50_host_interface.md): two machines that differ in the pending signals, an admitted and
a refused load, the latches the host writes and reads, and the framebuffer view. -/

namespace Sys2Proof.Machine

/-! ## The pending signals -/

/-- The state with other values of the two pending signals (R32, R33). -/
def State.withPending (s : State) (draw beep : Bool) : State := { s with drawPending := draw, beepPending := beep }

/-- Every instruction gives the same state whatever the pending signals hold, but for `DRAW_PENDING`: the one that was
there, or the one a sprite draw sets (R258, R216). -/
theorem afterExec_withPending (i : Instr) (s : State) (d b : Bool) :
    ∃ d', afterExec i (s.withPending d b) = (afterExec i s).withPending d' b := by
  cases i
  case drw x y n =>
    -- the range check does not look at the signals: both draws fault, or both set `DRAW_PENDING`
    have hbase : (s.withPending d b).base = s.base := rfl
    simp only [afterExec, hbase]
    split
    · exact ⟨d, rfl⟩
    · exact ⟨true, rfl⟩
  all_goals refine ⟨d, ?_⟩
  -- one condition, which does not look at the signals: each branch commutes
  case seImm | sneImm | seReg | sneReg | skp | sknp | ldB | stRegs | ldRegs =>
    simp only [afterExec, skipIf, apply_ite (State.withPending · d b)]
    rfl
  case ret | call =>
    simp only [afterExec, apply_dite (State.withPending · d b)]
    rfl
  case ldVxK =>
    have hkey : (s.withPending d b).lowestKey = s.lowestKey := rfl
    simp only [afterExec, hkey]
    cases s.lowestKey <;> rfl
  all_goals rfl

/-- The timer tick adds to `BEEP_PENDING` a term that does not depend on it, and leaves `DRAW_PENDING` alone (R126). -/
theorem State.timerTick_withPending (s : State) (d b : Bool) :
    (s.withPending d b).timerTick = s.timerTick.withPending d (b || s.st == 1#8) := rfl

/-- A step that fetches a word of no row ends at the decoder (R123, R125). -/
theorem step_of_unknownWord {s : State} (hr : Running s) (hpc : s.pc.toNat ≤ 0xFFE)
    (hd : decode (s.wordAt s.pc.toNat) = none) :
    step s = .next (timersTicked (s.markUsed.advance.raise (.unknownOpcode (s.wordAt s.pc.toNat)))) := by
  have hfault : s.fault = none := hr
  simp only [step_eq, hfault, if_neg (Nat.not_lt.2 hpc), hd, State.timerTick_eq]

/-- Replacing the pending signals before a step is replacing them after it, with values the step may have set. -/
theorem step_withPending {s t : State} (h : step s = .next t) (d b : Bool) :
    ∃ d' b', step (s.withPending d b) = .next (t.withPending d' b') := by
  -- every path of a running step ends with the timer tick, on a state that differs only in the signals
  have hfinish {u v : State} {d' : Bool} (hstep : step (s.withPending d b) = .next (timersTicked v))
      (hv : v = u.withPending d' b) : ∃ d' b', step (s.withPending d b) = .next (u.timerTick.withPending d' b') :=
    ⟨d', b || u.st == 1#8, by rw [hstep, hv, ← State.timerTick_eq, State.timerTick_withPending]⟩
  obtain ⟨f, hf, rfl⟩ | ⟨hr, hpc, rfl⟩ | ⟨hr, hpc, hd, rfl⟩ | ⟨i, u, hr, hpc, hd, hu, rfl⟩ := step_cases h
  · obtain ⟨hhalted, -⟩ := haltedTickChangesNothing (t.withPending d b) f hf
    exact ⟨d, b, hhalted⟩
  · exact hfinish (d' := d) (step_of_pc_above (s := s.withPending d b) hr hpc) rfl
  · exact hfinish (d' := d) (step_of_unknownWord (s := s.withPending d b) hr hpc hd) rfl
  · obtain rfl := eq_afterExec hu
    obtain ⟨d', hexec⟩ := afterExec_withPending i s.markUsed.advance d b
    exact hfinish (step_of_decode (s := s.withPending d b) hr hpc hd) hexec

/-- Settles O21: each path of a step commutes with replacing the pending signals. -/
theorem pendingSignalsAreNeverRead : Obligations.PendingSignalsAreNeverRead := by
  intro s d b
  obtain ⟨t, h⟩ := exists_step s
  obtain ⟨d', b', h'⟩ := step_withPending h d b
  exact ⟨t, _, h, h', rfl⟩

/-! ## Load -/

/-- Consecutive writes into canonical memory, read at any address: the written byte inside their range, the old one
outside. -/
theorem Memory.read_writeBytes {m : List Host.Cell} (hw : Memory.wf m = true) {base : Nat} {bs : List Byte}
    (hr : base + bs.length ≤ 4096) (a : Nat) :
    Memory.read (Memory.writeBytes m base bs) a =
      if base ≤ a ∧ a < base + bs.length then bs.getD (a - base) 0 else Memory.read m a := by
  split
  · obtain ⟨j, rfl⟩ := Nat.exists_eq_add_of_le (show base ≤ a by omega)
    have hj : j < bs.length := by omega
    rw [Memory.read_writeBytes_inside hw hr hj, Nat.add_sub_cancel_left, List.getD_eq_getElem bs 0 hj]
  · exact Memory.read_writeBytes_outside m (by omega)

section Load
variable {font program : List Byte} {s : State}

/-- A load onto a used machine is refused, whatever its size (R253 (b)). -/
theorem hostStep_load_used (hu : s.used = true) : hostStep font (.load program) s = .refused .loadOnUsedMachine := by
  simp only [hostStep, hostLoadOp, hostLoad, hu, if_true]

/-- A load that does not fit changes no state (R253 (a)). -/
theorem hostStep_load_too_large (hu : s.used = false) (hp : 3584 < program.length) :
    hostStep font (.load program) s = .next (s, .romTooLarge) := by
  have hfits : programFits program = false := decide_eq_false (Nat.not_le.2 hp)
  simp only [hostStep, hostLoadOp, hostLoad, hu, hfits, Bool.false_eq_true, if_false]

/-- A load that fits, onto an unused machine, installs the font and the program (R252). -/
theorem hostStep_load_admitted (hu : s.used = false) (hp : program.length ≤ 3584) :
    hostStep font (.load program) s = .next (install font program s, .done) := by
  have hfits : programFits program = true := decide_eq_true hp
  simp only [hostStep, hostLoadOp, hostLoad, hu, hfits, Bool.false_eq_true, if_false, if_true]

/-- The font and the largest program end inside the address space, so an admitted load keeps memory canonical. -/
theorem install_keeps_wf (hw : Memory.wf s.mem = true) (hf : font.length = 80) (hp : program.length ≤ 3584) :
    Memory.wf (install font program s).mem = true := by
  have hfont : 0 + font.length ≤ 4096 := by omega
  have hprogram : 0x200 + program.length ≤ 4096 := by omega
  exact Memory.wf_writeBytes (Memory.wf_writeBytes hw hfont) hprogram

/-- The byte map an admitted load leaves; the font ends below the program's first address (R252). -/
theorem install_byteAt (hw : Memory.wf s.mem = true) (hf : font.length = 80) (hp : program.length ≤ 3584) (a : Nat) :
    (install font program s).byteAt a = if a < 80 then font.getD a 0 else
      if 0x200 ≤ a ∧ a < 0x200 + program.length then program.getD (a - 0x200) 0 else s.byteAt a := by
  have hfont : 0 + font.length ≤ 4096 := by omega
  have hprogram : 0x200 + program.length ≤ 4096 := by omega
  rw [State.byteAt, install, Memory.read_writeBytes (Memory.wf_writeBytes hw hfont) hprogram,
    Memory.read_writeBytes hw hfont]
  by_cases ha : a < 80
  · rw [if_neg (by omega), if_pos (by omega), if_pos ha, Nat.sub_zero]
  · rw [if_neg (c := 0 ≤ a ∧ a < 0 + font.length) (by omega), if_neg ha]
    rfl

end Load

/-- Settles O48: an admitted load is two stores in range, the font and the program. -/
theorem loadInstallsFontAndProgram : Obligations.LoadInstallsFontAndProgram :=
  fun font program s hw hu hf hp => ⟨install font program s, hostStep_load_admitted hu hp, install_byteAt hw hf hp, rfl,
    rfl, install_keeps_wf hw hf hp⟩

/-- Settles O49: the used machine is looked at first, then the program's length. -/
theorem loadRefusals : Obligations.LoadRefusals :=
  fun _ _ _ => ⟨hostStep_load_too_large, hostStep_load_used⟩

/-! ## The latches -/

/-- Setting one key of the latch, by toggling its bit where it differs, leaves the other keys as they were (R257). -/
theorem keyHeld_hostSetKey (k j : Fin 16) (held : Bool) (s : State) :
    (hostSetKey k held s).keyHeld j = if j = k then held else s.keyHeld j := by
  by_cases hk : s.keyHeld k = held
  · have hsame : hostSetKey k held s = s := by rw [hostSetKey, if_pos hk]
    rw [hsame]
    split
    · next hj => rw [hj, hk]
    · rfl
  · have hkeys : (hostSetKey k held s).keys = s.keys ^^^ BitVec.twoPow 16 k.val := if_neg hk
    have htoggle : (hostSetKey k held s).keyHeld j = (s.keyHeld j ^^ decide (k = j)) := by
      simp only [State.keyHeld, hkeys, BitVec.getLsbD_xor, BitVec.getLsbD_twoPow, k.isLt, decide_true, Bool.true_and,
        Fin.val_inj]
    rw [htoggle]
    split
    · next hj => rw [hj, decide_eq_true rfl, Bool.xor_true, Bool.not_eq.2 hk]
    · next hj => rw [decide_eq_false (Ne.symm hj), Bool.xor_false]

/-- Settles O50: the reads and clears are the operation itself; a key write is the latch the host gives, bit by bit. -/
theorem hostLatchOperations : Obligations.HostLatchOperations := by
  intro font s
  refine ⟨fun keys => ⟨hostWriteKeys keys s, rfl, fun _ => rfl, rfl⟩, fun k held => ?_, rfl, rfl, rfl, rfl, rfl⟩
  exact ⟨hostSetKey k held s, rfl, fun j => keyHeld_hostSetKey k j held s, rfl⟩

/-! ## The framebuffer view -/

theorem length_frameView (s : State) : (frameView s).length = 2048 := by
  rw [frameView, List.length_map, List.length_range]

/-- Value `k` of the view is cell `k`, as 0 or 1 (R260). -/
theorem getElem?_frameView (s : State) {k : Nat} (hk : k < 2048) :
    (frameView s)[k]? = some (flagByte (Frame.cell s.fb k)) := by
  rw [frameView, List.getElem?_map, List.getElem?_range hk, Option.map_some]

/-- Settles O51: `row*64 + col` is one of the 2048 cells. -/
theorem framebufferView : Obligations.FramebufferView :=
  fun _ s => ⟨frameView s, rfl, length_frameView s, fun _ _ _ _ => getElem?_frameView s (by omega)⟩

end Sys2Proof.Machine
end

section
/-! PROOFS. Faults (spec/60_exceptions.md) and the start of execution (spec/70_reset_and_hazards.md): a word of no row, the
complete table of who raises what, and the first fetch after reset and load. -/

namespace Sys2Proof.Machine

/-! ## Unknown words -/

/-- A word that selects no row of the table does not decode (R97). -/
theorem decode_eq_none_of_no_row {op : Word} (h : ∀ r ∈ opcodeTable, r.selects op = false) : decode op = none := by
  obtain ⟨-, -, hrow, -⟩ := decoderFollowsTheOpcodeTable
  cases hd : decode op with
  | none => rfl
  | some i =>
    obtain ⟨r, hr, -, hsel⟩ := hrow op i hd
    exact absurd hsel (by simp [h r hr])

/-- Settles O8: the word does not decode, so the step ends at the decoder. -/
theorem unknownWordFaults : Obligations.UnknownWordFaults :=
  fun _ hr hpc hrow => step_of_unknownWord hr hpc (decode_eq_none_of_no_row hrow)

/-! ## The table of faults (R286) -/

/-- An execute phase of a running core leaves in `FAULT` what the table of R286 gives its instruction. -/
theorem afterExec_fault {s : State} (hr : Running s) (i : Instr) : (afterExec i s).fault = executeFault i s := by
  cases i
  case ret =>
    simp only [afterExec, executeFault]
    by_cases h : s.sp.val = 0
    · rw [dif_neg (by omega), if_pos h, State.raise_fault]
    · rw [dif_pos (by omega), if_neg h]
      exact hr
  case call =>
    simp only [afterExec, executeFault]
    by_cases h : s.sp.val = 16
    · rw [dif_neg (by omega), if_pos h, State.raise_fault]
    · rw [dif_pos (by omega), if_neg h]
      exact hr
  -- one range check on both sides
  case drw | ldB | stRegs | ldRegs =>
    simp only [afterExec, executeFault]
    split
    · rfl
    · exact hr
  -- the others have no row in the table, and none writes `FAULT`
  case ldVxK =>
    simp only [afterExec]
    split <;> exact hr
  case seImm | sneImm | seReg | sneReg | skp | sknp => exact (skipIf_fault s _).trans hr
  all_goals exact hr

section TickFault
variable {s : State}

/-- Above `0xFFE` the fault is that of the fetch (R121). -/
theorem tickFault_of_pc_above (hpc : 0xFFE < s.pc.toNat) :
    tickFault s = some (.memFault (BitVec.ofNat 16 (max s.pc.toNat 0x1000))) := if_pos hpc

/-- A fetched word that does not decode is the fault (R123, R282). -/
theorem tickFault_of_unknownWord (hpc : s.pc.toNat ≤ 0xFFE) (hd : decode (s.wordAt s.pc.toNat) = none) :
    tickFault s = some (.unknownOpcode (s.wordAt s.pc.toNat)) := by
  rw [tickFault, if_neg (Nat.not_lt.2 hpc), hd]

/-- A fetched instruction leaves the fault to its execute phase (R124). -/
theorem tickFault_of_decode {i : Instr} (hpc : s.pc.toNat ≤ 0xFFE) (hd : decode (s.wordAt s.pc.toNat) = some i) :
    tickFault s = executeFault i s := by
  rw [tickFault, if_neg (Nat.not_lt.2 hpc), hd]

/-- A step of a running core leaves in `FAULT` the first fault met in phase order (R287). -/
theorem step_fault {t : State} (hr : Running s) (h : step s = .next t) : t.fault = tickFault s := by
  obtain ⟨f, hf, -⟩ | ⟨-, hpc, rfl⟩ | ⟨-, hpc, hd, rfl⟩ | ⟨i, u, -, hpc, hd, hu, rfl⟩ := step_cases h
  · exact absurd hr (not_running_of_fault hf)
  · exact (tickFault_of_pc_above hpc).symm
  · exact (tickFault_of_unknownWord hpc hd).symm
  · -- the table reads `SP`, `I` and the operands, none of which the phases before the execute phase write
    have hsame : executeFault i s.markUsed.advance = executeFault i s := rfl
    calc u.timerTick.fault
        = u.fault := State.timerTick_fault u
      _ = (afterExec i s.markUsed.advance).fault := congrArg State.fault (eq_afterExec hu)
      _ = executeFault i s.markUsed.advance := afterExec_fault (s := s.markUsed.advance) hr i
      _ = tickFault s := hsame.trans (tickFault_of_decode hpc hd).symm

end TickFault

/-- Settles O16: the table for the execute phase, and the step's fault, which its status repeats. -/
theorem faultsAreThoseOfTheTable : Obligations.FaultsAreThoseOfTheTable := by
  refine ⟨fun i s hr => ⟨_, exec_eq i s, afterExec_fault hr i⟩, fun s hr => ?_⟩
  obtain ⟨t, h⟩ := exists_step s
  have hfault : t.fault = tickFault s := step_fault hr h
  exact ⟨t, h, hfault, hfault⟩

/-! ## The first fetch (R321, R322) -/

section Start
variable {font program : List Byte} {s : State}

/-- An admitted load keeps the invariant: it writes memory in range, and sets `USED`. -/
theorem install_keeps_inv (hs : StateInv s) (hf : font.length = 80) (hp : program.length ≤ 3584) :
    StateInv (install font program s) := by
  obtain ⟨hmem, hpc, hstack, -⟩ := hs
  exact ⟨install_keeps_wf hmem hf hp, hpc, hstack, fun _ => rfl⟩

/-- A byte of the program stands at its address after an admitted load. -/
theorem install_byteAt_program (hw : Memory.wf s.mem = true) (hf : font.length = 80) (hp : program.length ≤ 3584)
    {j : Nat} (hj : j < program.length) : (install font program s).byteAt (0x200 + j) = program.getD j 0 := by
  rw [install_byteAt hw hf hp, if_neg (by omega), if_pos (by omega), Nat.add_sub_cancel_left]

/-- The word at the program's first address after an admitted load: its first two bytes, high byte first (R65, R252). -/
theorem install_wordAt_origin (hw : Memory.wf s.mem = true) (hf : font.length = 80) (hlow : 2 ≤ program.length)
    (hp : program.length ≤ 3584) :
    (install font program s).wordAt 0x200 =
      BitVec.ofNat 16 ((program.getD 0 0).toNat * 256 + (program.getD 1 0).toNat) := by
  have hfirst : (install font program s).byteAt 0x200 = program.getD 0 0 :=
    install_byteAt_program hw hf hp (j := 0) (by omega)
  have hsecond : (install font program s).byteAt 0x201 = program.getD 1 0 :=
    install_byteAt_program hw hf hp (j := 1) (by omega)
  rw [State.wordAt, hfirst, hsecond]

end Start

/-- Settles O52: reset leaves an unused machine that meets the invariant, with `pc` at `0x200`; the load keeps the
invariant and puts the program there. -/
theorem executionStartsAtTheProgram : Obligations.ExecutionStartsAtTheProgram := by
  intro font program s hf hlow hp
  obtain ⟨-, hreset⟩ := resetMeetsTheInvariant
  have hinv : StateInv (install font program (hostReset s)) := install_keeps_inv (hreset s) hf hp
  have hrun : Running (install font program (hostReset s)) := rfl
  have hpc : (install font program (hostReset s)).pc = 0x200 := rfl
  obtain ⟨hfetch, -⟩ := fetchIsBigEndianAndFaultsAboveFFE _ hrun
  refine ⟨_, hostStep_load_admitted rfl hp, hrun, hinv, hpc, ?_⟩
  rw [hpc] at hfetch
  exact (hfetch (by decide)).trans (congrArg _ (install_wordAt_origin rfl hf hlow hp))

end Sys2Proof.Machine
end
